-- ==== Sys2Proof/Word.lean ====
section
/-! DEFINITION. The widths the spec gives the machine's data, and the names of its four buffers. -/

namespace Sys2Proof

/-- A word: an unsigned 64-bit integer (R11). -/
abbrev Word := BitVec 64

/-- One byte of a word or of the host's window (R40). -/
abbrev Byte := BitVec 8

/-- The index of a word in a buffer, 7 bits, 0 to 127 (R62, R64). -/
abbrev Index := BitVec 7

/-- A byte offset in the engine's 4096-byte window, 12 bits (R44, R61). -/
abbrev Offset := BitVec 12

/-- A format U word: one 32-bit micro-operation of the schedule ROM (R62). -/
abbrev MicroWord := BitVec 32

/-- A block: the contents of one buffer, 128 words (R19, R20, R22, R23). -/
abbrev Block := Vector Word 128

/-- The four buffers of the engine (R20, R22, R23). -/
inductive Buffer where
  /-- input buffer A (R22) -/
  | a
  /-- input buffer B (R22) -/
  | b
  /-- working buffer X (R20) -/
  | x
  /-- result buffer Z (R23) -/
  | z
deriving DecidableEq, Repr

end Sys2Proof
end

