-- ==== Sys2Proof/Syntax.lean ====
section
/-! DEFINITION. The three encodings of R60 and the instructions: one constructor for each row of spec/opcode_table.json. -/

namespace Sys2Proof

/-- The size field of a transaction: 1, 2, 4 or 8 bytes (R61). -/
inductive Size where
  | one
  | two
  | four
  | eight
deriving DecidableEq, Repr

/-- The kind field of a transaction, with the write data, which a read does not carry (R61). -/
inductive Access where
  /-- kind = 0 -/
  | read
  /-- kind = 1, with wdata -/
  | write (wdata : Word)
deriving DecidableEq, Repr

/-- Format T: one host bus transaction (R61). -/
structure Transaction where
  kind : Access
  off : Offset
  size : Size
deriving DecidableEq, Repr

/-- A unit the machine decodes, in one of the three formats of R60. -/
inductive Encoded where
  /-- format U: a micro-operation word (R62) -/
  | u (w : MicroWord)
  /-- format T: a host transaction (R61) -/
  | t (t : Transaction)
  /-- format C: the data word of a write to CTRL (R63) -/
  | c (v : Word)
deriving DecidableEq, Repr

/-- The instructions: micro-operations (R65), host transactions (R66) and CTRL commands (R63). -/
inductive Instr where
  /-- XORIN (R120) -/
  | xorin
  /-- MIX of the X words a, b, c, d (R86) -/
  | mix (a b c d : Index)
  /-- BAR (R121) -/
  | bar
  /-- XOROUT (R122) -/
  | xorout
  /-- RESERVED.U: a reserved format U word, named whole (R67) -/
  | reservedU (w : MicroWord)
  /-- RD.A (R142) -/
  | rdA (i : Index)
  /-- WR.A (R143) -/
  | wrA (i : Index) (v : Word)
  /-- RD.B (R144) -/
  | rdB (i : Index)
  /-- WR.B (R145) -/
  | wrB (i : Index) (v : Word)
  /-- RD.Z (R146) -/
  | rdZ (i : Index)
  /-- WR.Z, always refused (R147) -/
  | wrZ (i : Index) (v : Word)
  /-- RD.CTRL (R149) -/
  | rdCtrl
  /-- WR.CTRL of the data word v (R150 to R153) -/
  | wrCtrl (v : Word)
  /-- RD.STATUS (R148) -/
  | rdStatus
  /-- WR.STATUS, always refused (R154) -/
  | wrStatus (v : Word)
  /-- RESERVED.T: a read or write at a reserved offset (R155) -/
  | reservedT (kind : Access) (off : Offset)
  /-- BAD_ACCESS.T: a narrow or misaligned transaction (R156) -/
  | badAccessT (t : Transaction)
  /-- START: the CTRL data word 1 (R150, R151) -/
  | start
  /-- CTRL.NOP: the CTRL data word 0 (R153) -/
  | ctrlNop
  /-- CTRL.RESERVED: a CTRL data word with one of bits 63:1 set (R152) -/
  | ctrlReserved (v : Word)
deriving DecidableEq, Repr

end Sys2Proof
end

