-- ==== Sys2Proof/WellFormed.lean ====
section
/-! DEFINITION. Which instructions stand for an encoding: the conditions of R65 to R68 on the operands. -/

namespace Sys2Proof

/-- Four indices are pairwise distinct, as MIX asks (R86). -/
def pairwiseDistinct (a b c d : Index) : Bool :=
  a != b && a != c && a != d && b != c && b != d && c != d

/-- R67: a format U word is reserved when its op field is 0x0 or 0x5 to 0xF, when it is XORIN, BAR
or XOROUT with one of bits 27:0 set, or when it is MIX with two equal indices. -/
def reservedMicroWord (w : MicroWord) : Bool :=
  let op := w.toNat / 2 ^ 28
  if op = 2 then
    !pairwiseDistinct (w.extractLsb' 21 7) (w.extractLsb' 14 7) (w.extractLsb' 7 7) (w.extractLsb' 0 7)
  else if op = 1 ∨ op = 3 ∨ op = 4 then w.toNat % 2 ^ 28 != 0
  else true

/-- R155: the reserved offsets are the multiples of 8 from 0xC10 to 0xFF8. -/
def reservedOffset (off : Offset) : Bool :=
  decide (0xC10 ≤ off.toNat) && off.toNat % 8 == 0

/-- R156: the size is not 8 bytes, or the offset is not a multiple of 8. -/
def badAccess (t : Transaction) : Bool :=
  t.size != .eight || t.off.toNat % 8 != 0

/-- An instruction is well formed when some unit of R60 encodes it. -/
def Instr.wellFormed : Instr → Bool
  | .mix a b c d => pairwiseDistinct a b c d
  | .reservedU w => reservedMicroWord w
  | .reservedT _ off => reservedOffset off
  | .badAccessT t => badAccess t
  | .ctrlReserved v => v.toNat / 2 != 0
  | .xorin | .bar | .xorout => true
  | .rdA _ | .wrA _ _ | .rdB _ | .wrB _ _ | .rdZ _ | .wrZ _ _ => true
  | .rdCtrl | .wrCtrl _ | .rdStatus | .wrStatus _ => true
  | .start | .ctrlNop => true

end Sys2Proof
end

