-- ==== Sys2Proof/Decode.lean ====
section
/-! DEFINITION. Decoding of the three formats (R62 to R68), total: every reserved unit is named by the
constructor of its own table row. After it the encoder, written from the same tables. -/

namespace Sys2Proof

/-! ### Fields -/

/-- U[31:28] (R62). -/
def opField (w : MicroWord) : BitVec 4 := w.extractLsb' 28 4

/-- U[27:21], MIX operand a (R62, R64). -/
def iaField (w : MicroWord) : Index := w.extractLsb' 21 7

/-- U[20:14], MIX operand b (R62, R64). -/
def ibField (w : MicroWord) : Index := w.extractLsb' 14 7

/-- U[13:7], MIX operand c (R62, R64). -/
def icField (w : MicroWord) : Index := w.extractLsb' 7 7

/-- U[6:0], MIX operand d (R62, R64). -/
def idField (w : MicroWord) : Index := w.extractLsb' 0 7

/-- off[11:10], the region: 0 A, 1 B, 2 Z, 3 registers (R61, R64). -/
def regionField (off : Offset) : BitVec 2 := off.extractLsb' 10 2

/-- off[9:3], the word index (R61, R64). -/
def wordField (off : Offset) : Index := off.extractLsb' 3 7

/-- off[2:0], the byte within the word (R61). -/
def byteField (off : Offset) : BitVec 3 := off.extractLsb' 0 3

/-- The offset of CTRL (R44). -/
def ctrlOffset : Offset := 0xC00

/-- The offset of STATUS (R44). -/
def statusOffset : Offset := 0xC08

/-! ### Decoding -/

/-- Format U: the exact patterns of R65; everything else is reserved and named so (R67). -/
def decodeMicro (w : MicroWord) : Instr :=
  if w = 0x10000000 then .xorin
  else if w = 0x30000000 then .bar
  else if w = 0x40000000 then .xorout
  else if opField w = 0x2 ∧ pairwiseDistinct (iaField w) (ibField w) (icField w) (idField w) = true then
    .mix (iaField w) (ibField w) (icField w) (idField w)
  else .reservedU w

/-- The dispatch of R66 for a transaction that passed the checks of R141. In the register region only
CTRL and STATUS are left. -/
def dispatchTransaction (kind : Access) (off : Offset) : Instr :=
  match kind with
  | .read =>
    if regionField off = 0 then .rdA (wordField off)
    else if regionField off = 1 then .rdB (wordField off)
    else if regionField off = 2 then .rdZ (wordField off)
    else if off = ctrlOffset then .rdCtrl
    else .rdStatus
  | .write v =>
    if regionField off = 0 then .wrA (wordField off) v
    else if regionField off = 1 then .wrB (wordField off) v
    else if regionField off = 2 then .wrZ (wordField off) v
    else if off = ctrlOffset then .wrCtrl v
    else .wrStatus v

/-- Format T: the checks of R141 in their order, then the dispatch of R66. -/
def decodeTransaction (t : Transaction) : Instr :=
  if t.size ≠ .eight ∨ byteField t.off ≠ 0 then .badAccessT t
  else if 0xC10 ≤ t.off then .reservedT t.kind t.off
  else dispatchTransaction t.kind t.off

/-- Format C: the data word of a write to CTRL (R63, R150 to R153). -/
def decodeCommand (v : Word) : Instr :=
  if v = 0 then .ctrlNop
  else if v = 1 then .start
  else .ctrlReserved v

/-- A decoder knows a unit's length from its format alone (R71). -/
def decode : Encoded → Instr
  | .u w => decodeMicro w
  | .t t => decodeTransaction t
  | .c v => decodeCommand v

/-! ### Encoding -/

/-- The MIX word: op 0x2, then ia, ib, ic, id (R62, R73). -/
def encodeMix (a b c d : Index) : MicroWord :=
  (0x2 : BitVec 4) ++ a ++ b ++ c ++ d

/-- The offset of word i of a region: region, index, and byte 0 (R44, R61). -/
def regionOffset (region : BitVec 2) (i : Index) : Offset :=
  region ++ i ++ (0 : BitVec 3)

/-- A transaction of the admitted size (R47). -/
def wordTransaction (kind : Access) (off : Offset) : Encoded :=
  .t { kind := kind, off := off, size := .eight }

/-- The unit that encodes an instruction, from the tables of R44, R63, R65 and R66. -/
def encode : Instr → Encoded
  | .xorin => .u 0x10000000
  | .mix a b c d => .u (encodeMix a b c d)
  | .bar => .u 0x30000000
  | .xorout => .u 0x40000000
  | .reservedU w => .u w
  | .rdA i => wordTransaction .read (regionOffset 0 i)
  | .wrA i v => wordTransaction (.write v) (regionOffset 0 i)
  | .rdB i => wordTransaction .read (regionOffset 1 i)
  | .wrB i v => wordTransaction (.write v) (regionOffset 1 i)
  | .rdZ i => wordTransaction .read (regionOffset 2 i)
  | .wrZ i v => wordTransaction (.write v) (regionOffset 2 i)
  | .rdCtrl => wordTransaction .read ctrlOffset
  | .wrCtrl v => wordTransaction (.write v) ctrlOffset
  | .rdStatus => wordTransaction .read statusOffset
  | .wrStatus v => wordTransaction (.write v) statusOffset
  | .reservedT kind off => wordTransaction kind off
  | .badAccessT t => .t t
  | .start => .c 1
  | .ctrlNop => .c 0
  | .ctrlReserved v => .c v

/-! ### The opcode table's numbering -/

/-- The unit whose bits are w, numbered as spec/opcode_table.json numbers them. The table numbers a
format T row by the 12 bits of off alone: bit 12 is taken as the kind of R61, the size is the 8 bytes
every such row names, and the write data, which the table does not number, is zero. DESIGN CHOICE,
log entry 6. -/
def tableUnit (nbits w : Nat) : Option Encoded :=
  if nbits ≤ 16 then
    if w < 2 ^ 13 then
      some (wordTransaction (if w / 2 ^ 12 = 0 then .read else .write 0) (BitVec.ofNat 12 w))
    else none
  else if nbits ≤ 32 then
    if w < 2 ^ 32 then some (.u (BitVec.ofNat 32 w)) else none
  else if nbits ≤ 64 then
    if w < 2 ^ 64 then some (.c (BitVec.ofNat 64 w)) else none
  else none

/-- The instruction the decoder reads from a table word. -/
def decodeTableWord (nbits w : Nat) : Option Instr :=
  (tableUnit nbits w).map decode

end Sys2Proof
end

