-- ==== Sys2Proof/Config.lean ====
section
/-! DEFINITION. What is fixed for one engine and is not state: the parameters of R10 the model uses, the two OPEN ones as opaque constants. -/

namespace Sys2Proof

/-- The number of entries of the schedule ROM (R26, R69). -/
def Config.romLength : Nat := 135

/-- The size of the host's window in bytes (R10 BUS_OFFSET_BITS, R44). -/
def Config.windowBytes : Nat := 4096

/-- The window's base address in the host's address space: OPEN (R10, R44), so no body. -/
opaque Config.base : Nat

/-- The contents of the buffers at power-up: RESET_CONTENT, OPEN (R10, R31, R192).
A free value, one draw a word, under no law; a claim holds for every value of it. Log entry 1. -/
opaque Config.resetContent : Buffer → Index → Word

end Sys2Proof
end

