-- ==== Sys2Proof/Machine/State.lean ====
section
/-! DEFINITION. The state of the engine as plain data (R29), what its environment may do next, and the state after reset (R31). -/

namespace Sys2Proof.Machine

/-- Why a step stops with a fault. -/
inductive Fault where
  /-- Raised by the engine's fetch (Machine/Turns.lean) when upc names no entry of the schedule ROM.
  R25 says upc never holds such a value, so no reachable state raises it. Safe: the model stops. -/
  | upcOutOfRange (upc : BitVec 8)
deriving DecidableEq, Repr

/-- Why a step gives an instruction no meaning. -/
inductive Refusal where
  /-- Raised by an arm of exec whose instruction has no meaning yet; no arm raises it. Safe. -/
  | notModelled (mnemonic : String)
  /-- Raised by RESERVED.U: the spec defines no behaviour for a reserved micro-operation word
  (R67, R172). The refusal ends the run, which is the refusal mark of R172. Safe. -/
  | reservedMicroOp (w : MicroWord)
  /-- Raised by MIX with two equal indices, which R67 reserves and R86 says a model refuses; the
  decoder never gives such a MIX. Safe. -/
  | mixIndicesEqual (a b c d : Index)
deriving DecidableEq, Repr

/-- The resp field of a response (R61). -/
inductive Resp where
  | okay
  | error
deriving DecidableEq, Repr

/-- The model's label of a refused transaction (R171); not visible on the bus. -/
inductive BusError where
  | badAccess
  | unmapped
  | readOnly
  | lockedBusy
  | reservedBits
deriving DecidableEq, Repr

/-- The response to one transaction (R61, R140). -/
structure Response where
  resp : Resp
  /-- the read data; none for a write, where the field has no meaning (R61) -/
  rdata : Option Word
  /-- the model's label of a refusal (R171) -/
  label : Option BusError
deriving DecidableEq, Repr

/-- What the four buffers hold after a reset: one draw a word, of the environment's choice (R31, R192). -/
structure ResetContent where
  a : Block
  b : Block
  x : Block
  z : Block
deriving DecidableEq, Repr

/-- One event of the total order of R52, as the environment chooses it. -/
inductive Input where
  /-- the host issues a transaction (R140) -/
  | host (t : Transaction)
  /-- the host writes the word v to CTRL, 8 bytes at offset 0xC00, given by its format C word alone (R63) -/
  | ctrl (v : Word)
  /-- the engine takes its turn (R128) -/
  | engine
  /-- rst is asserted, and the buffers come up with these contents (R190, R191) -/
  | reset (content : ResetContent)
deriving DecidableEq, Repr

/-- The state: the record of R29, the optional bits of R192, and three fields of the model's own. -/
structure State where
  /-- input buffer A (R22) -/
  a : Block
  /-- input buffer B (R22) -/
  b : Block
  /-- working buffer X (R20) -/
  x : Block
  /-- result buffer Z (R23) -/
  z : Block
  /-- STATUS[0] (R24) -/
  busy : Bool
  /-- STATUS[1] (R24) -/
  done : Bool
  /-- the micro-program counter (R25) -/
  upc : BitVec 8
  /-- which words of A were written since the last reset (R192) -/
  aWritten : Vector Bool 128
  /-- which words of B were written since the last reset (R192) -/
  bWritten : Vector Bool 128
  /-- MODEL'S OWN: the response of the latest transaction, none before the first since reset (R61). Log entry 3. -/
  response : Option Response
  /-- MODEL'S OWN: the events to come, in the total order of R52. Log entry 2. -/
  inputs : List Input
  /-- MODEL'S OWN: a micro-operation word that stands in for the ROM entry at the engine's next turn.
  None in every state a run reaches. Log entry 4. -/
  fetchProbe : Option MicroWord
deriving DecidableEq, Repr

/-- The RESET_CONTENT of power-up (R10): every word a free value. -/
def powerUpContent : ResetContent where
  a := Vector.ofFn fun i => Config.resetContent .a (BitVec.ofFin i)
  b := Vector.ofFn fun i => Config.resetContent .b (BitVec.ofFin i)
  x := Vector.ofFn fun i => Config.resetContent .x (BitVec.ofFin i)
  z := Vector.ofFn fun i => Config.resetContent .z (BitVec.ofFin i)

/-- The state right after power-up reset (R31, R190): idle, no result, upc 0, every buffer word a draw. -/
def State.reset : State where
  a := powerUpContent.a
  b := powerUpContent.b
  x := powerUpContent.x
  z := powerUpContent.z
  busy := false
  done := false
  upc := 0
  aWritten := Vector.replicate 128 false
  bWritten := Vector.replicate 128 false
  response := none
  inputs := []
  fetchProbe := none

end Sys2Proof.Machine
end

