-- ==== Sys2Proof/Machine/Ops.lean ====
section
/-! DEFINITION. The named operations on blocks and on the state: reading and writing a word, advancing the
sequencer, answering a transaction, and refusing one (the machine's only error, R16). -/

namespace Sys2Proof.Machine

/-! ### Blocks -/

/-- Word i of a block (R15). -/
def readWord (blk : Block) (i : Index) : Word := blk[i.toNat]'(i.isLt)

/-- The block with word i set to v (R15). -/
def writeWord (blk : Block) (i : Index) (v : Word) : Block := blk.set i.toNat v i.isLt

/-- The block whose word i is f i. -/
def tabulate (f : Index → Word) : Block := Vector.ofFn fun i => f (BitVec.ofFin i)

/-- The elementwise exclusive or of two blocks (R120). -/
def xorBlocks (p q : Block) : Block := tabulate fun i => readWord p i ^^^ readWord q i

/-- The block of zeros (R133). -/
def zeroBlock : Block := tabulate fun _ => 0

/-- A "written since reset" bit (R192). -/
def wasWritten (m : Vector Bool 128) (i : Index) : Bool := m[i.toNat]'(i.isLt)

/-- Set a "written since reset" bit (R192). -/
def markWritten (m : Vector Bool 128) (i : Index) : Vector Bool 128 := m.set i.toNat true i.isLt

/-! ### Bytes of a block (R40) -/

/-- Byte j of a word, j = 0 the least significant (R40, R42). -/
def wordByte (v : Word) (j : BitVec 3) : Byte := v.extractLsb' (8 * j.toNat) 8

/-- The word of the eight bytes m 0 to m 7: the sum of m j * 2^(8*j) (R40). -/
def wordOfBytes (m : BitVec 3 → Byte) : Word :=
  m 7 ++ m 6 ++ m 5 ++ m 4 ++ m 3 ++ m 2 ++ m 1 ++ m 0

/-- Byte k of a block: byte k mod 8 of word k div 8 (R40). -/
def blockByte (blk : Block) (k : BitVec 10) : Byte :=
  wordByte (readWord blk (k.extractLsb' 3 7)) (k.extractLsb' 0 3)

/-- The block held as the bytes m 0 to m 1023 (R40). -/
def blockOfBytes (m : BitVec 10 → Byte) : Block :=
  tabulate fun i => wordOfBytes fun j => m (i ++ j)

/-! ### The sequencer -/

/-- upc <- upc + 1 (R25). -/
def advance (s : State) : State := { s with upc := s.upc + 1 }

/-- X <- blk. -/
def setX (s : State) (blk : Block) : State := { s with x := blk }

/-! ### Input buffers -/

/-- A[i] <- v, and the word counts as written since reset (R143, R192). -/
def writeA (s : State) (i : Index) (v : Word) : State :=
  { s with a := writeWord s.a i v, aWritten := markWritten s.aWritten i }

/-- B[i] <- v, and the word counts as written since reset (R145, R192). -/
def writeB (s : State) (i : Index) (v : Word) : State :=
  { s with b := writeWord s.b i v, bWritten := markWritten s.bWritten i }

/-! ### Responses (R140) -/

/-- The state after a response has been given. -/
def respond (s : State) (r : Response) : State := { s with response := some r }

/-- The response OKAY(v) that ends a read (R16). -/
def okayRead (v : Word) : Response := { resp := .okay, rdata := some v, label := none }

/-- The response OKAY that ends a write (R16). -/
def okayWrite : Response := { resp := .okay, rdata := none, label := none }

/-- The response ERROR of a refused transaction; for a read, rdata = 0 (R140). -/
def errorResponse (kind : Access) (e : BusError) : Response :=
  match kind with
  | .read => { resp := .error, rdata := some 0, label := some e }
  | .write _ => { resp := .error, rdata := none, label := some e }

/-- respond OKAY(v), ending a read. -/
def answerRead (v : Word) (s : State) : Host.Outcome State Fault Refusal :=
  .next (respond s (okayRead v))

/-- respond OKAY, ending a write. -/
def answerWrite (s : State) : Host.Outcome State Fault Refusal :=
  .next (respond s okayWrite)

/-- raise BusError(e): the one error of the machine. The transaction ends with an ERROR response and
changes nothing else: no register is saved, no mode changes and no vector is taken (R16, R140, R176), so
there is no return from it either (R177). -/
def raiseBusError (kind : Access) (e : BusError) (s : State) : Host.Outcome State Fault Refusal :=
  .next (respond s (errorResponse kind e))

/-- The number of a refusal label (R171). -/
def busErrorCode : BusError → Nat
  | .badAccess => 1
  | .unmapped => 2
  | .readOnly => 3
  | .lockedBusy => 4
  | .reservedBits => 5

/-! ### Events and the probe (the model's own fields) -/

/-- The state once its first event has been taken from the events to come. -/
def popInput (s : State) : State := { s with inputs := s.inputs.tail }

/-- The state with an event put before the events to come. -/
def pushInput (s : State) (e : Input) : State := { s with inputs := e :: s.inputs }

/-- The state with no word standing in for the ROM entry. -/
def clearProbe (s : State) : State := { s with fetchProbe := none }

/-- A run in progress whose next micro-operation is the word w. -/
def armProbe (s : State) (w : MicroWord) : State :=
  { s with busy := true, done := false, fetchProbe := some w }

/-! ### Reset -/

/-- The reset event (R190, R203): idle, no result, upc 0, a run in progress abandoned, and every buffer
word a draw of the environment's. The events still to come stay to come. -/
def applyReset (content : ResetContent) (s : State) : State :=
  { a := content.a, b := content.b, x := content.x, z := content.z,
    busy := false, done := false, upc := 0,
    aWritten := Vector.replicate 128 false, bWritten := Vector.replicate 128 false,
    response := none, inputs := s.inputs, fetchProbe := none }

end Sys2Proof.Machine
end

