-- ==== Sys2Proof/Machine/Flags.lean ====
section
/-! DEFINITION. The two status bits and what is computed from them (R24, R30). No arithmetic sets a flag (R33). -/

namespace Sys2Proof.Machine

/-- The STATUS register: zext_64(DONE << 1 | BUSY); bits 63:2 are hardwired 0 (R24, R148). -/
def statusWord (s : State) : Word :=
  (BitVec.ofBool s.done ++ BitVec.ofBool s.busy).setWidth 64

/-- The output signal done (R30). -/
def doneSignal (s : State) : Bool := s.done

/-- An accepted START: BUSY <- 1, DONE <- 0, upc <- 0 (R150). -/
def startRun (s : State) : State := { s with busy := true, done := false, upc := 0 }

/-- The end of a run: BUSY <- 0, DONE <- 1, upc <- 0 (R122). -/
def finishRun (s : State) : State := { s with busy := false, done := true, upc := 0 }

/-- Z <- blk. -/
def setZ (s : State) (blk : Block) : State := { s with z := blk }

end Sys2Proof.Machine
end

