-- ==== Sys2Proof/Machine/Mixer.lean ====
section
/-! DEFINITION. The WordMixer: the multiply-add, the rotate and the eight-stage chain G (40_word_mixer.md). -/

namespace Sys2Proof.Machine

/-- The low 32 bits, zero-extended to 64 (R13). -/
def lo32 (v : Word) : Word := (v.extractLsb' 0 32).setWidth 64

/-- MA(x, y) = x + y + 2 * lo32(x) * lo32(y) modulo 2^64 (R81). -/
def multiplyAdd (x y : Word) : Word := x + y + 2 * lo32 x * lo32 y

/-- rotr(x, n), as R82 computes it. -/
def rotr (x : Word) (n : Nat) : Word := (x >>> n) ||| (x <<< (64 - n))

/-- G on the four words: the stages S1 to S8 of R83 in order, with the constants of R85. -/
def mixWords (a b c d : Word) : Word × Word × Word × Word :=
  let a1 := multiplyAdd a b            -- S1
  let d1 := rotr (d ^^^ a1) 32         -- S2
  let c1 := multiplyAdd c d1           -- S3
  let b1 := rotr (b ^^^ c1) 24         -- S4
  let a2 := multiplyAdd a1 b1          -- S5
  let d2 := rotr (d1 ^^^ a2) 16        -- S6
  let c2 := multiplyAdd c1 d2          -- S7
  let b2 := rotr (b1 ^^^ c2) 63        -- S8
  (a2, b2, c2, d2)

end Sys2Proof.Machine
end

