-- ==== Sys2Proof/Machine/Operands.lean ====
section
/-! DEFINITION. The operand forms: the four X words a MIX names (R64, R86), and the host's view of the window by
byte offset (R42, R44). -/

namespace Sys2Proof.Machine

/-- An ordered 4-tuple of X indices (a, b, c, d): a quad (R19). -/
abbrev Quad := Index × Index × Index × Index

/-- The four words a quad names, all read before any is written (R86). -/
def readQuad (x : Block) (q : Quad) : Word × Word × Word × Word :=
  (readWord x q.1, readWord x q.2.1, readWord x q.2.2.1, readWord x q.2.2.2)

/-- X[a] <- va; X[b] <- vb; X[c] <- vc; X[d] <- vd (R86). -/
def writeQuad (x : Block) (q : Quad) (v : Word × Word × Word × Word) : Block :=
  writeWord (writeWord (writeWord (writeWord x q.1 v.1) q.2.1 v.2.1) q.2.2.1 v.2.2.1) q.2.2.2 v.2.2.2

/-- MIX on a block: G applied to the four words the quad names (R86). -/
def mixAt (x : Block) (q : Quad) : Block :=
  let v := readQuad x q
  writeQuad x q (mixWords v.1 v.2.1 v.2.2.1 v.2.2.2)

/-- The bytes the engine stores behind the offsets of the window (R42, R44): A at 0x000, B at 0x400, Z
at 0x800, CTRL, which holds no value and reads 0, and STATUS. The reserved offsets store nothing. -/
def windowByte (s : State) (off : Offset) : Option Byte :=
  let k : BitVec 10 := off.extractLsb' 0 10
  if off.toNat < 0x400 then some (blockByte s.a k)
  else if off.toNat < 0x800 then some (blockByte s.b k)
  else if off.toNat < 0xC00 then some (blockByte s.z k)
  else if off.toNat < 0xC08 then some 0
  else if off.toNat < 0xC10 then some (wordByte (statusWord s) (off.extractLsb' 0 3))
  else none

/-- The host address of an offset of the window (R44). -/
def hostAddress (off : Offset) : Nat := Config.base + off.toNat

/-- The offset of a host address, if the window holds it (R44, R50). -/
def windowOffset (addr : Nat) : Option Offset :=
  if Config.base ≤ addr ∧ addr < Config.base + Config.windowBytes then
    some (BitVec.ofNat 12 (addr - Config.base))
  else none

end Sys2Proof.Machine
end

