-- ==== Sys2Proof/Machine/Commands.lean ====
section
/-! DEFINITION. The meanings of the CTRL commands, format C: the data words of a write to CTRL (R150 to R153). -/

namespace Sys2Proof.Machine

/-- START (R150, R151): starts a run when idle or done; LOCKED_BUSY during a run, and not queued. -/
def execStart (s : State) : Host.Outcome State Fault Refusal :=
  if s.busy then raiseBusError (.write 1) .lockedBusy s
  else answerWrite (startRun s)

/-- CTRL.NOP (R153): accepted, no effect, busy or not. -/
def execCtrlNop (s : State) : Host.Outcome State Fault Refusal :=
  answerWrite s

/-- CTRL.RESERVED (R152): refused; RESERVED_BITS when idle, LOCKED_BUSY during a run. -/
def execCtrlReserved (v : Word) (s : State) : Host.Outcome State Fault Refusal :=
  raiseBusError (.write v) (if s.busy then .lockedBusy else .reservedBits) s

end Sys2Proof.Machine
end

