-- ==== Sys2Proof/Machine/MicroOps.lean ====
section
/-! DEFINITION. The meanings of the micro-operations, format U (R86, R120 to R122, R67). -/

namespace Sys2Proof.Machine

/-- XORIN (R120): X[i] <- A[i] ^ B[i] for every i; upc <- upc + 1. -/
def execXorin (s : State) : Host.Outcome State Fault Refusal :=
  .next (advance (setX s (xorBlocks s.a s.b)))

/-- MIX (R86): G on four distinct words of X; upc <- upc + 1. A MIX with equal indices is a reserved
encoding and is refused by name. -/
def execMix (a b c d : Index) (s : State) : Host.Outcome State Fault Refusal :=
  if pairwiseDistinct a b c d then .next (advance (setX s (mixAt s.x (a, b, c, d))))
  else .refused (.mixIndicesEqual a b c d)

/-- BAR (R121): upc <- upc + 1. Its ordering effect holds by construction, one entry a step. -/
def execBar (s : State) : Host.Outcome State Fault Refusal :=
  .next (advance s)

/-- XOROUT (R122): Z[i] <- X[i] ^ A[i] ^ B[i] for every i, and the run ends, in one step. -/
def execXorout (s : State) : Host.Outcome State Fault Refusal :=
  .next (finishRun (setZ s (xorBlocks (xorBlocks s.x s.a) s.b)))

/-- RESERVED.U (R67, R172): no hardware behaviour is defined; refused by name. -/
def execReservedU (w : MicroWord) (_s : State) : Host.Outcome State Fault Refusal :=
  .refused (.reservedMicroOp w)

end Sys2Proof.Machine
end

