-- ==== Sys2Proof/Machine/Transactions.lean ====
section
/-! DEFINITION. The meanings of the host's transactions, format T (R142 to R156). A refused transaction is a next
state: ERROR is its response, and nothing else changes. -/

namespace Sys2Proof.Machine

/-- RD.A (R142): admitted busy or not. -/
def execRdA (i : Index) (s : State) : Host.Outcome State Fault Refusal :=
  answerRead (readWord s.a i) s

/-- WR.A (R143): LOCKED_BUSY during a run. -/
def execWrA (i : Index) (v : Word) (s : State) : Host.Outcome State Fault Refusal :=
  if s.busy then raiseBusError (.write v) .lockedBusy s
  else answerWrite (writeA s i v)

/-- RD.B (R144): admitted busy or not. -/
def execRdB (i : Index) (s : State) : Host.Outcome State Fault Refusal :=
  answerRead (readWord s.b i) s

/-- WR.B (R145): LOCKED_BUSY during a run. -/
def execWrB (i : Index) (v : Word) (s : State) : Host.Outcome State Fault Refusal :=
  if s.busy then raiseBusError (.write v) .lockedBusy s
  else answerWrite (writeB s i v)

/-- RD.Z (R146): LOCKED_BUSY during a run. -/
def execRdZ (i : Index) (s : State) : Host.Outcome State Fault Refusal :=
  if s.busy then raiseBusError .read .lockedBusy s
  else answerRead (readWord s.z i) s

/-- WR.Z (R147): always READ_ONLY, which comes before LOCKED_BUSY (R141). -/
def execWrZ (_i : Index) (v : Word) (s : State) : Host.Outcome State Fault Refusal :=
  raiseBusError (.write v) .readOnly s

/-- RD.CTRL (R149): CTRL holds no value and reads 0. -/
def execRdCtrl (s : State) : Host.Outcome State Fault Refusal :=
  answerRead 0 s

/-- WR.CTRL (R150 to R153), the four cases in the order of R150's pseudocode. -/
def execWrCtrl (v : Word) (s : State) : Host.Outcome State Fault Refusal :=
  if v = 0 then answerWrite s
  else if s.busy then raiseBusError (.write v) .lockedBusy s
  else if v.extractLsb' 1 63 ≠ 0 then raiseBusError (.write v) .reservedBits s
  else answerWrite (startRun s)

/-- RD.STATUS (R148): no side effect; DONE is not cleared. -/
def execRdStatus (s : State) : Host.Outcome State Fault Refusal :=
  answerRead (statusWord s) s

/-- WR.STATUS (R154): always READ_ONLY. -/
def execWrStatus (v : Word) (s : State) : Host.Outcome State Fault Refusal :=
  raiseBusError (.write v) .readOnly s

/-- RESERVED.T (R155): UNMAPPED, for a read and for a write. -/
def execReservedT (kind : Access) (_off : Offset) (s : State) : Host.Outcome State Fault Refusal :=
  raiseBusError kind .unmapped s

/-- BAD_ACCESS.T (R156): BAD_ACCESS at every offset, the first check of R141. -/
def execBadAccessT (t : Transaction) (s : State) : Host.Outcome State Fault Refusal :=
  raiseBusError t.kind .badAccess s

end Sys2Proof.Machine
end

