-- ==== Sys2Proof/Machine/Dispatch.lean ====
section
/-! DEFINITION. The meaning of every instruction, one arm each. -/

namespace Sys2Proof.Machine

def exec (i : Instr) (s : State) : Host.Outcome State Fault Refusal :=
  match i with
  -- format U
  | .xorin => Sys2Proof.Machine.execXorin s
  | .mix a b c d => Sys2Proof.Machine.execMix a b c d s
  | .bar => Sys2Proof.Machine.execBar s
  | .xorout => Sys2Proof.Machine.execXorout s
  | .reservedU w => Sys2Proof.Machine.execReservedU w s
  -- format T
  | .rdA k => Sys2Proof.Machine.execRdA k s
  | .wrA k v => Sys2Proof.Machine.execWrA k v s
  | .rdB k => Sys2Proof.Machine.execRdB k s
  | .wrB k v => Sys2Proof.Machine.execWrB k v s
  | .rdZ k => Sys2Proof.Machine.execRdZ k s
  | .wrZ k v => Sys2Proof.Machine.execWrZ k v s
  | .rdCtrl => Sys2Proof.Machine.execRdCtrl s
  | .wrCtrl v => Sys2Proof.Machine.execWrCtrl v s
  | .rdStatus => Sys2Proof.Machine.execRdStatus s
  | .wrStatus v => Sys2Proof.Machine.execWrStatus v s
  | .reservedT kind off => Sys2Proof.Machine.execReservedT kind off s
  | .badAccessT t => Sys2Proof.Machine.execBadAccessT t s
  -- format C
  | .start => Sys2Proof.Machine.execStart s
  | .ctrlNop => Sys2Proof.Machine.execCtrlNop s
  | .ctrlReserved v => Sys2Proof.Machine.execCtrlReserved v s

end Sys2Proof.Machine
end

