-- ==== Sys2Proof/Machine/Schedule.lean ====
section
/-! DEFINITION. The schedule ROM as R69 lists it, the rule R70 that generates it, and the group layouts and quad lists
it is made of (R100 to R103). -/

namespace Sys2Proof.Machine

/-! ### Groups and quads -/

/-- The row-group map row(r, i) = 16*r + i (R100). -/
def rowIndex (r i : Nat) : Index := BitVec.ofNat 7 (16 * r + i)

/-- The column-group map col(j, i) = 2*j + 16*(i div 2) + (i mod 2) (R101). -/
def colIndex (j i : Nat) : Index := BitVec.ofNat 7 (2 * j + 16 * (i / 2) + i % 2)

/-- COLQ, the quads of the column sub-pass, as group-word numbers (R102). -/
def columnQuads : List (Nat × Nat × Nat × Nat) :=
  [(0, 4, 8, 12), (1, 5, 9, 13), (2, 6, 10, 14), (3, 7, 11, 15)]

/-- DIAQ, the quads of the diagonal sub-pass, as group-word numbers (R103). -/
def diagonalQuads : List (Nat × Nat × Nat × Nat) :=
  [(0, 5, 10, 15), (1, 6, 11, 12), (2, 7, 8, 13), (3, 4, 9, 14)]

/-- The X indices of a list of group-word quads, under a group map (R104). -/
def groupQuads (m : Nat → Index) (quads : List (Nat × Nat × Nat × Nat)) : List Quad :=
  quads.map fun q => (m q.1, m q.2.1, m q.2.2.1, m q.2.2.2)

/-! ### The listing of R69 -/

/-- Window W1, upc 2 to 33: the column sub-pass of the row groups (R126). -/
def windowW1 : List MicroWord := [
    0x2001040c, 0x2021448d, 0x2041850e, 0x2061c58f, 0x22050c1c, 0x22254c9d, 0x22458d1e, 0x2265cd9f,
    0x2409142c, 0x242954ad, 0x2449952e, 0x2469d5af, 0x260d1c3c, 0x262d5cbd, 0x264d9d3e, 0x266dddbf,
    0x2811244c, 0x283164cd, 0x2851a54e, 0x2871e5cf, 0x2a152c5c, 0x2a356cdd, 0x2a55ad5e, 0x2a75eddf,
    0x2c19346c, 0x2c3974ed, 0x2c59b56e, 0x2c79f5ef, 0x2e1d3c7c, 0x2e3d7cfd, 0x2e5dbd7e, 0x2e7dfdff ]

/-- Window W2, upc 35 to 66: the diagonal sub-pass of the row groups (R126). -/
def windowW2 : List MicroWord := [
    0x2001450f, 0x2021858c, 0x2041c40d, 0x2061048e, 0x22054d1f, 0x22258d9c, 0x2245cc1d, 0x22650c9e,
    0x2409552f, 0x242995ac, 0x2449d42d, 0x246914ae, 0x260d5d3f, 0x262d9dbc, 0x264ddc3d, 0x266d1cbe,
    0x2811654f, 0x2831a5cc, 0x2851e44d, 0x287124ce, 0x2a156d5f, 0x2a35addc, 0x2a55ec5d, 0x2a752cde,
    0x2c19756f, 0x2c39b5ec, 0x2c59f46d, 0x2c7934ee, 0x2e1d7d7f, 0x2e3dbdfc, 0x2e5dfc7d, 0x2e7d3cfe ]

/-- Window W3, upc 68 to 99: the column sub-pass of the column groups (R126). -/
def windowW3 : List MicroWord := [
    0x20082060, 0x202860e1, 0x220c2870, 0x222c68f1, 0x2048a162, 0x2068e1e3, 0x224ca972, 0x226ce9f3,
    0x20892264, 0x20a962e5, 0x228d2a74, 0x22ad6af5, 0x20c9a366, 0x20e9e3e7, 0x22cdab76, 0x22edebf7,
    0x210a2468, 0x212a64e9, 0x230e2c78, 0x232e6cf9, 0x214aa56a, 0x216ae5eb, 0x234ead7a, 0x236eedfb,
    0x218b266c, 0x21ab66ed, 0x238f2e7c, 0x23af6efd, 0x21cba76e, 0x21ebe7ef, 0x23cfaf7e, 0x23efefff ]

/-- Window W4, upc 101 to 132: the diagonal sub-pass of the column groups (R126). -/
def windowW4 : List MicroWord := [
    0x20086871, 0x202c28e0, 0x220c6061, 0x222820f0, 0x2048e973, 0x206ca9e2, 0x224ce163, 0x2268a1f2,
    0x20896a75, 0x20ad2ae4, 0x228d6265, 0x22a922f4, 0x20c9eb77, 0x20edabe6, 0x22cde367, 0x22e9a3f6,
    0x210a6c79, 0x212e2ce8, 0x230e6469, 0x232a24f8, 0x214aed7b, 0x216eadea, 0x234ee56b, 0x236aa5fa,
    0x218b6e7d, 0x21af2eec, 0x238f666d, 0x23ab26fc, 0x21cbef7f, 0x21efafee, 0x23cfe76f, 0x23eba7fe ]

/-- The schedule ROM, upc 0 to 134 (R69): XORIN; four windows, each opened by a BAR; a BAR; XOROUT.
A constant of the machine; nothing writes it (R26, R46). -/
def scheduleRom : List MicroWord :=
  [0x10000000] ++ (0x30000000 :: windowW1) ++ (0x30000000 :: windowW2)
    ++ (0x30000000 :: windowW3) ++ (0x30000000 :: windowW4) ++ [0x30000000, 0x40000000]

/-! ### The generation of R70 -/

/-- The MIX words of a list of quads. -/
def mixWordsOf (quads : List Quad) : List MicroWord :=
  quads.map fun q => encodeMix q.1 q.2.1 q.2.2.1 q.2.2.2

/-- The quads of one window of R70: those of group 0, then of group 1, and so on to group 7. -/
def windowQuads (m : Nat → Nat → Index) (quads : List (Nat × Nat × Nat × Nat)) : List Quad :=
  (List.range 8).flatMap fun g => groupQuads (m g) quads

/-- The ROM as R70 generates it. -/
def generatedRom : List MicroWord :=
  [0x10000000]
    ++ ([(rowIndex, columnQuads), (rowIndex, diagonalQuads), (colIndex, columnQuads),
         (colIndex, diagonalQuads)].flatMap fun p => 0x30000000 :: mixWordsOf (windowQuads p.1 p.2))
    ++ [0x30000000, 0x40000000]

end Sys2Proof.Machine
end

