-- ==== Sys2Proof/Machine/Turns.lean ====
section
/-! DEFINITION. The turns of the two agents and of the environment: what one event does (R128, R140, R191). -/

namespace Sys2Proof.Machine

/-- The micro-operation word the sequencer fetches: the ROM entry at upc (R25, R128), or the probe where
the model's own field holds one (log entry 4). -/
def fetchMicroWord (s : State) : Option MicroWord :=
  match s.fetchProbe with
  | some w => some w
  | none => scheduleRom[s.upc.toNat]?

/-- The engine's turn (R128): one micro-operation while BUSY = 1, no step while BUSY = 0. -/
def engineTurn (s : State) : Host.Outcome State Fault Refusal :=
  if s.busy then
    match fetchMicroWord s with
    | some w => exec (decode (.u w)) (clearProbe s)
    | none => .fault (.upcOutOfRange s.upc)
  else .next s

/-- The host's turn with a transaction (R140). -/
def hostTurn (t : Transaction) (s : State) : Host.Outcome State Fault Refusal :=
  exec (decode (.t t)) s

/-- The host's turn with a write to CTRL given by its data word (R63). -/
def commandTurn (v : Word) (s : State) : Host.Outcome State Fault Refusal :=
  exec (decode (.c v)) s

/-- The reset event, a step of its own between any two others (R191). -/
def resetTurn (content : ResetContent) (s : State) : Host.Outcome State Fault Refusal :=
  .next (applyReset content s)

/-- The state in which the very next step runs a unit. A transaction or a CTRL word is the host's next
event. A micro-operation is the probe of the engine's next turn, which a run must be in progress for. -/
def placeUnit (s : State) : Encoded → State
  | .t t => pushInput s (.host t)
  | .c v => pushInput s (.ctrl v)
  | .u w => pushInput (armProbe s w) .engine

end Sys2Proof.Machine
end

