-- ==== Sys2Proof/Machine/Step.lean ====
section
/-! DEFINITION. One step of the machine: the next event of the total order of R52. -/

namespace Sys2Proof.Machine

/-- One step: the first event to come is taken; when none is left, the engine takes its turn. So an
engine step may fall between any two transactions, every order of R52 is some list of events, and an
enabled engine step is taken at last (R128's weak fairness), since the list is finite. -/
def step (s : State) : Host.Outcome State Fault Refusal :=
  match s.inputs with
  | [] => engineTurn s
  | .engine :: _ => engineTurn (popInput s)
  | .host t :: _ => hostTurn t (popInput s)
  | .ctrl v :: _ => commandTurn v (popInput s)
  | .reset content :: _ => resetTurn content (popInput s)

/-- The state whose next step fetches and runs the instruction with the bits w. A number that is no
unit of the table's leaves the state as it is. -/
def State.withFetchWord (s : State) (nbits w : Nat) : State :=
  match tableUnit nbits w with
  | some e => placeUnit s e
  | none => s

end Sys2Proof.Machine
end

