-- ==== Sys2Proof/Machine/Assembler.lean ====
section
/-! DEFINITION. The assembler syntax of R72 to R76, from a line's characters to the units it stands for. The syntax
carries no semantics beyond this expansion (92_eei_decisions.md D30); no step calls it. -/

namespace Sys2Proof.Machine

/-! ### Pseudo-instructions as listings (R74) -/

/-- The listing of one PERM: the column quads, bar, the diagonal quads (R74). -/
def permListing (m : Nat → Index) : List Encoded :=
  (mixWordsOf (groupQuads m columnQuads)).map Encoded.u
    ++ [.u 0x30000000] ++ (mixWordsOf (groupQuads m diagonalQuads)).map Encoded.u

/-- The pseudo-instruction compress: the entries of the ROM (R74). -/
def compressListing : List Encoded := scheduleRom.map Encoded.u

/-- The loop condition of the host's poll: bit 1 (DONE) of a STATUS read is 1 (R76). -/
def pollEnds (status : Word) : Bool := status.getLsbD 1

/-! ### Characters, tokens and numbers (R72) -/

/-- The line up to its comment. -/
def stripComment : List Char → List Char
  | [] => []
  | c :: cs => if c = ';' then [] else c :: stripComment cs

/-- Mnemonics are case-insensitive: an upper-case letter counts as its lower-case one. -/
def lowerChar (c : Char) : Char :=
  if 65 ≤ c.toNat ∧ c.toNat ≤ 90 then Char.ofNat (c.toNat + 32) else c

/-- A word read so far, as a token, put before the tokens after it. -/
def closeToken (word : List Char) (rest : List (List Char)) : List (List Char) :=
  if word.isEmpty then rest else word.reverse :: rest

/-- The tokens of a line: runs of characters between blanks, each comma a token of its own. Every token is lower-cased,
operands too: R72 says so of mnemonics, and of an operand (X1, 0XC11) it is left open. DESIGN CHOICE, log entry 18. -/
def tokens (word : List Char) : List Char → List (List Char)
  | [] => closeToken word []
  | c :: cs =>
    if c = ' ' ∨ c = '\t' then closeToken word (tokens [] cs)
    else if c = ',' then closeToken word ([','] :: tokens [] cs)
    else tokens (lowerChar c :: word) cs

/-- The value of a digit of base 16. -/
def digitValue (c : Char) : Option Nat :=
  if 48 ≤ c.toNat ∧ c.toNat ≤ 57 then some (c.toNat - 48)
  else if 97 ≤ c.toNat ∧ c.toNat ≤ 102 then some (c.toNat - 87)
  else none

/-- The number a run of digits stands for, after the value already read. -/
def digitsValue (base acc : Nat) : List Char → Option Nat
  | [] => some acc
  | c :: cs =>
    match digitValue c with
    | some d => if d < base then digitsValue base (acc * base + d) cs else none
    | none => none

/-- A number, decimal or 0x hexadecimal (R72). Leading zeros are read. DESIGN CHOICE, log entry 18. -/
def numberValue (t : List Char) : Option Nat :=
  match t with
  | [] => none
  | ['0', 'x'] => none
  | '0' :: 'x' :: ds => digitsValue 16 0 ds
  | ds => digitsValue 10 0 ds

/-- A number below a bound. -/
def boundedNumber (bound : Nat) (t : List Char) : Option Nat :=
  (numberValue t).bind fun n => if n < bound then some n else none

/-- An X word x0 to x127 (R73). Leading zeros (x007) are read, and so is the upper-case X that tokens has lower-cased;
R73 leaves both open. DESIGN CHOICE, log entry 18. -/
def xOperand (t : List Char) : Option Index :=
  match t with
  | 'x' :: ds => (if ds.take 2 = ['0', 'x'] then none else boundedNumber 128 ds).map (BitVec.ofNat 7)
  | _ => none

/-- The operands of a line: tokens separated by single commas. -/
def operands : List (List Char) → Option (List (List Char))
  | [] => some []
  | [t] => if t = [','] then none else some [t]
  | t :: c :: rest =>
    if t = [','] ∨ c ≠ [','] ∨ rest.isEmpty then none else (operands rest).map (t :: ·)

/-! ### One line -/

/-- mix xA, xB, xC, xD with four distinct words (R73). -/
def assembleMix (ops : List (List Char)) : Option (List Encoded) :=
  match ops.mapM xOperand with
  | some [a, b, c, d] => if pairwiseDistinct a b c d then some [.u (encodeMix a b c d)] else none
  | _ => none

/-- A read of a size (R75). -/
def assembleRead (size : Size) (ops : List (List Char)) : Option (List Encoded) :=
  match ops with
  | [off] => (boundedNumber 4096 off).map fun o =>
      [.t { kind := .read, off := BitVec.ofNat 12 o, size := size }]
  | _ => none

/-- A write of a size (R75). -/
def assembleWrite (size : Size) (ops : List (List Char)) : Option (List Encoded) :=
  match ops with
  | [off, data] =>
    (boundedNumber 4096 off).bind fun o => (boundedNumber (2 ^ 64) data).map fun v =>
      [.t { kind := .write (BitVec.ofNat 64 v), off := BitVec.ofNat 12 o, size := size }]
  | _ => none

/-- rd.a, rd.b or rd.z of a word (R76). -/
def assembleReadWord (region : BitVec 2) (ops : List (List Char)) : Option (List Encoded) :=
  match ops with
  | [i] => (boundedNumber 128 i).map fun n =>
      [wordTransaction .read (regionOffset region (BitVec.ofNat 7 n))]
  | _ => none

/-- wr.a or wr.b of a word (R76). -/
def assembleWriteWord (region : BitVec 2) (ops : List (List Char)) : Option (List Encoded) :=
  match ops with
  | [i, data] =>
    (boundedNumber 128 i).bind fun n => (boundedNumber (2 ^ 64) data).map fun v =>
      [wordTransaction (.write (BitVec.ofNat 64 v)) (regionOffset region (BitVec.ofNat 7 n))]
  | _ => none

/-- perm.row or perm.col of a group 0 to 7 (R74). -/
def assemblePerm (m : Nat → Nat → Index) (ops : List (List Char)) : Option (List Encoded) :=
  match ops with
  | [g] => (boundedNumber 8 g).map fun n => permListing (m n)
  | _ => none

/-- The units a mnemonic without operands stands for. -/
def assembleBare (units : List Encoded) (ops : List (List Char)) : Option (List Encoded) :=
  if ops.isEmpty then some units else none

/-- The units of one operation, by its mnemonic (R73 to R76). poll is a host-side loop, not an
operation, and is no line here. -/
def assembleOperation (mnemonic : List Char) (ops : List (List Char)) : Option (List Encoded) :=
  match mnemonic with
  | ['x', 'o', 'r', 'i', 'n'] => assembleBare [.u 0x10000000] ops
  | ['m', 'i', 'x'] => assembleMix ops
  | ['b', 'a', 'r'] => assembleBare [.u 0x30000000] ops
  | ['x', 'o', 'r', 'o', 'u', 't'] => assembleBare [.u 0x40000000] ops
  | ['p', 'e', 'r', 'm', '.', 'r', 'o', 'w'] => assemblePerm rowIndex ops
  | ['p', 'e', 'r', 'm', '.', 'c', 'o', 'l'] => assemblePerm colIndex ops
  | ['c', 'o', 'm', 'p', 'r', 'e', 's', 's'] => assembleBare compressListing ops
  | ['r', 'd'] => assembleRead .eight ops
  | ['r', 'd', '.', '1'] => assembleRead .one ops
  | ['r', 'd', '.', '2'] => assembleRead .two ops
  | ['r', 'd', '.', '4'] => assembleRead .four ops
  | ['w', 'r'] => assembleWrite .eight ops
  | ['w', 'r', '.', '1'] => assembleWrite .one ops
  | ['w', 'r', '.', '2'] => assembleWrite .two ops
  | ['w', 'r', '.', '4'] => assembleWrite .four ops
  | ['r', 'd', '.', 'a'] => assembleReadWord 0 ops
  | ['r', 'd', '.', 'b'] => assembleReadWord 1 ops
  | ['r', 'd', '.', 'z'] => assembleReadWord 2 ops
  | ['w', 'r', '.', 'a'] => assembleWriteWord 0 ops
  | ['w', 'r', '.', 'b'] => assembleWriteWord 1 ops
  | ['s', 't', 'a', 'r', 't'] => assembleBare [wordTransaction (.write 1) ctrlOffset] ops
  | ['s', 't', 'a', 't', 'u', 's'] => assembleBare [wordTransaction .read statusOffset] ops
  | _ => none

/-- The units one line stands for: none at all for a blank line, no answer for a line that is not of the syntax. -/
def assembleLine (line : List Char) : Option (List Encoded) :=
  match tokens [] (stripComment line) with
  | [] => some []
  | mnemonic :: rest => (operands rest).bind (assembleOperation mnemonic)

end Sys2Proof.Machine
end

