-- ==== Sys2Proof/Machine/Compress.lean ====
section
/-! DEFINITION. The function one run computes, in the source's own order: PERM and Compress (R104, R130). The engine's
step does not call these; they are what its runs are compared with. -/

namespace Sys2Proof.Machine

/-- MIX applied to a list of quads in order. -/
def mixAll (x : Block) (quads : List Quad) : Block := quads.foldl mixAt x

/-- PERM of the group with map m: the column sub-pass, then the diagonal sub-pass (R104, R105). -/
def perm (m : Nat → Index) (x : Block) : Block :=
  mixAll (mixAll x (groupQuads m columnQuads)) (groupQuads m diagonalQuads)

/-- PERM of the groups m g, for the g of a list in order. -/
def permAll (m : Nat → Nat → Index) (groups : List Nat) (x : Block) : Block :=
  groups.foldl (fun y g => perm (m g) y) x

/-- Steps 2 and 3: PERM of the eight row groups, then of the eight column groups (R124, R125, R130). -/
def permuteBlock (x : Block) : Block :=
  permAll colIndex (List.range 8) (permAll rowIndex (List.range 8) x)

/-- Compress(A, B) (R130). -/
def compress (p q : Block) : Block :=
  xorBlocks (xorBlocks (permuteBlock (xorBlocks p q)) p) q

end Sys2Proof.Machine
end

