-- ==== Sys2Proof/Safety.lean ====
section
/-! DEFINITION. What counts as a safe state and a safe run, and the frames, in the terms the claims use. -/

namespace Sys2Proof.Machine

/-! ### Frames -/

/-- Every byte of the host's window reads as before. -/
def SameBytes (s t : State) : Prop := ∀ off, windowByte t off = windowByte s off

/-- Nothing but the response differs: no buffer, no status bit, not upc, no written bit, nothing of the
model's own fields, and no byte of the window. -/
def OnlyResponse (s t : State) : Prop :=
  t.a = s.a ∧ t.b = s.b ∧ t.x = s.x ∧ t.z = s.z ∧ t.busy = s.busy ∧ t.done = s.done ∧ t.upc = s.upc
    ∧ t.aWritten = s.aWritten ∧ t.bWritten = s.bWritten ∧ t.inputs = s.inputs ∧ t.fetchProbe = s.fetchProbe
    ∧ SameBytes s t

/-- What no micro-operation touches: the input buffers, their written bits, the response and the
model's other fields. -/
def SameHostSide (s t : State) : Prop :=
  t.a = s.a ∧ t.b = s.b ∧ t.aWritten = s.aWritten ∧ t.bWritten = s.bWritten ∧ t.response = s.response
    ∧ t.inputs = s.inputs ∧ t.fetchProbe = s.fetchProbe

/-! ### Invariants -/

/-- The invariants of R28: never busy and done at once; upc = 0 while idle; upc at most 134 while busy. -/
def StatusLegal (s : State) : Prop :=
  ¬(s.busy = true ∧ s.done = true) ∧ (s.busy = false → s.upc = 0) ∧ (s.busy = true → s.upc.toNat ≤ 134)

/-- No micro-operation but the ROM's is in the machine (R46): the model's probe is empty. -/
def NoProbe (s : State) : Prop := s.fetchProbe = none

/-- What an instruction of the ROM after XORIN does to X. BAR and XOROUT leave it. -/
def instrEffect (x : Block) : Instr → Block
  | .mix a b c d => mixAt x (a, b, c, d)
  | .xorin | .bar | .xorout | .reservedU _ => x
  | .rdA _ | .wrA _ _ | .rdB _ | .wrB _ _ | .rdZ _ | .wrZ _ _ => x
  | .rdCtrl | .wrCtrl _ | .rdStatus | .wrStatus _ | .reservedT _ _ | .badAccessT _ => x
  | .start | .ctrlNop | .ctrlReserved _ => x

/-- What one ROM entry after XORIN does to X. -/
def microEffect (x : Block) (w : MicroWord) : Block := instrEffect x (decodeMicro w)

/-- What X holds in a run on A and B when upc = k, for k at least 1: XORIN's value, then the effects of
the entries 1 to k - 1 in the order of the ROM. -/
def scheduledX (a b : Block) (k : Nat) : Block :=
  ((scheduleRom.take k).drop 1).foldl microEffect (xorBlocks a b)

/-- X holds what the run so far has made of A and B. -/
def XOnSchedule (s : State) : Prop :=
  s.busy = true → 1 ≤ s.upc.toNat → s.x = scheduledX s.a s.b s.upc.toNat

/-- The invariant of the machine's runs. -/
def RunInvariant (s : State) : Prop := StatusLegal s ∧ NoProbe s ∧ XOnSchedule s

/-- The launch premise of R192: every A and B word was written since the last reset. -/
def InputsWritten (s : State) : Prop :=
  ∀ i : Index, wasWritten s.aWritten i = true ∧ wasWritten s.bWritten i = true

/-- The next event is no reset. -/
def NoResetNext (s : State) : Prop := ∀ content, s.inputs.head? ≠ some (.reset content)

/-! ### Runs -/

/-- k steps from s reach t, with no fault and no refusal on the way. -/
def RunsTo (k : Nat) (s t : State) : Prop :=
  Host.Core.run Sys2Proof.core k s = .next t

/-- The write of word v at an offset, 8 bytes (R143, R145, R150). -/
def wordWrite (off : Offset) (v : Word) : Input := .host { kind := .write v, off := off, size := .eight }

/-- The 256 writes by which a host loads two blocks: of A[0] to A[127] and of B[0] to B[127], which R157 step 2 lets it
make in any order. -/
def inputWrites (p q : Block) : List Input :=
  ((List.range 128).map fun i =>
      wordWrite (regionOffset 0 (BitVec.ofNat 7 i)) (readWord p (BitVec.ofNat 7 i)))
    ++ ((List.range 128).map fun i =>
      wordWrite (regionOffset 1 (BitVec.ofNat 7 i)) (readWord q (BitVec.ofNat 7 i)))

/-- The write of START to CTRL (R157 step 3). -/
def startWrite : Input := wordWrite ctrlOffset 1

end Sys2Proof.Machine
end

