-- ==== Sys2Proof/Certificates/Slice0/Obligations.lean ====
section
/-! DEFINITION. The statements for the provers. -/

open Sys2Proof Sys2Proof.Machine

/-! ### Encoding -/

/-- Decoding and encoding are each other's inverse: no bit of a unit is dropped, and every unit of the
three formats (R60) is named by exactly one well-formed instruction. -/
def Obligations.DecodeAndEncodeAreInverse : Prop :=
  (∀ i : Instr, i.wellFormed = true → decode (encode i) = i) ∧
  (∀ e : Encoded, (decode e).wellFormed = true ∧ encode (decode e) = e)

/-- Words of the spec's own listings decode to the instructions the spec names for them (R65, R66, R69, R77, V-ENC). -/
def Obligations.SpecWordsDecode : Prop :=
  decode (.u 0x10000000) = .xorin ∧ decode (.u 0x30000000) = .bar ∧ decode (.u 0x40000000) = .xorout ∧
  decode (.u 0x2021858C) = .mix 1 6 11 12 ∧ decode (.u 0x23EBA7FE) = .mix 31 46 79 126 ∧
  decode (.u 0x20000000) = .reservedU 0x20000000 ∧ decode (.u 0x30200000) = .reservedU 0x30200000 ∧
  decode (.t ⟨.read, 0x3F8, .eight⟩) = .rdA 127 ∧ decode (.t ⟨.write 7, 0x7F8, .eight⟩) = .wrB 127 7 ∧
  decode (.t ⟨.read, 0xC08, .eight⟩) = .rdStatus ∧ decode (.t ⟨.write 1, 0xC00, .eight⟩) = .wrCtrl 1

/-- R67, the reserved micro-operation words: which they are, that the decoder names them and no meaning is
given them, and that the ROM holds none. -/
def Obligations.ReservedMicroWordsAreRefused : Prop :=
  (∀ w : MicroWord, decode (.u w) = .reservedU w ↔
    (w.toNat / 2 ^ 28 = 0 ∨ 5 ≤ w.toNat / 2 ^ 28
      ∨ ((w.toNat / 2 ^ 28 = 1 ∨ w.toNat / 2 ^ 28 = 3 ∨ w.toNat / 2 ^ 28 = 4) ∧ w.toNat % 2 ^ 28 ≠ 0)
      ∨ (w.toNat / 2 ^ 28 = 2 ∧
          ¬[w.toNat / 2 ^ 21 % 2 ^ 7, w.toNat / 2 ^ 14 % 2 ^ 7, w.toNat / 2 ^ 7 % 2 ^ 7, w.toNat % 2 ^ 7].Nodup))) ∧
  (∀ (w : MicroWord) (s : State), exec (.reservedU w) s = .refused (.reservedMicroOp w)) ∧
  (∀ w ∈ scheduleRom, decode (.u w) ≠ .reservedU w)

/-- R66, the dispatch of a transaction by kind and offset, after the size and alignment check: the region is
off[11:10], the word index off[9:3]. -/
def Obligations.TransactionsDispatchByOffset : Prop :=
  ∀ (k : Access) (off : Offset) (z : Size),
    if z ≠ .eight ∨ off.toNat % 8 ≠ 0 then decode (.t ⟨k, off, z⟩) = .badAccessT ⟨k, off, z⟩
    else if 0xC10 ≤ off.toNat then decode (.t ⟨k, off, z⟩) = .reservedT k off
    else
      let i : Index := BitVec.ofNat 7 (off.toNat / 8)
      match k with
      | .read =>
        decode (.t ⟨.read, off, z⟩) =
          if off.toNat < 0x400 then .rdA i else if off.toNat < 0x800 then .rdB i
          else if off.toNat < 0xC00 then .rdZ i else if off.toNat = 0xC00 then .rdCtrl else .rdStatus
      | .write v =>
        decode (.t ⟨.write v, off, z⟩) =
          if off.toNat < 0x400 then .wrA i v else if off.toNat < 0x800 then .wrB i v
          else if off.toNat < 0xC00 then .wrZ i v else if off.toNat = 0xC00 then .wrCtrl v else .wrStatus v

/-- R70: the ROM the spec lists is the one its rule generates, 135 entries. -/
def Obligations.RomIsTheGeneratedSchedule : Prop :=
  generatedRom = scheduleRom ∧ scheduleRom.length = 1 + 4 * (1 + 32) + 2 ∧ 1 + 4 * (1 + 32) + 2 = 135

/-- R126: the four windows, where they stand in the ROM between BAR entries, which sub-pass each one is, and that each
window's 32 MIX entries name each X index exactly once. -/
def Obligations.WindowsNameEveryIndexOnce : Prop :=
  (scheduleRom.drop 2).take 32 = windowW1 ∧ (scheduleRom.drop 35).take 32 = windowW2 ∧
  (scheduleRom.drop 68).take 32 = windowW3 ∧ (scheduleRom.drop 101).take 32 = windowW4 ∧
  (∀ k ∈ [1, 34, 67, 100, 133], scheduleRom[k]? = some 0x30000000) ∧
  windowW1 = mixWordsOf ((List.range 8).flatMap fun g => groupQuads (rowIndex g) columnQuads) ∧
  windowW2 = mixWordsOf ((List.range 8).flatMap fun g => groupQuads (rowIndex g) diagonalQuads) ∧
  windowW3 = mixWordsOf ((List.range 8).flatMap fun g => groupQuads (colIndex g) columnQuads) ∧
  windowW4 = mixWordsOf ((List.range 8).flatMap fun g => groupQuads (colIndex g) diagonalQuads) ∧
  ∀ w ∈ [windowW1, windowW2, windowW3, windowW4],
    w.length = 32 ∧ (∀ u ∈ w, opField u = 2) ∧
    ∀ i : Index, (w.flatMap fun u => [iaField u, ibField u, icField u, idField u]).count i = 1

/-! ### The WordMixer -/

/-- R81: MA over exact naturals, and the facts the rule lists: the product never wraps, the doubled product can
reach 2^65 - 2^34 + 2 and equals the product shifted left by 1, MA is commutative, and MA(x, 0) = x. -/
def Obligations.MultiplyAddIsExactModulo : Prop :=
  (∃ x y : Word, 2 * ((lo32 x).toNat * (lo32 y).toNat) = 2 ^ 65 - 2 ^ 34 + 2) ∧
  ∀ x y : Word,
    (multiplyAdd x y).toNat =
      (x.toNat + y.toNat + 2 * (x.toNat % 2 ^ 32) * (y.toNat % 2 ^ 32)) % 2 ^ 64 ∧
    (lo32 x).toNat = x.toNat % 2 ^ 32 ∧
    (lo32 x * lo32 y).toNat = (x.toNat % 2 ^ 32) * (y.toNat % 2 ^ 32) ∧
    (x.toNat % 2 ^ 32) * (y.toNat % 2 ^ 32) ≤ 2 ^ 64 - 2 ^ 33 + 1 ∧
    2 * lo32 x * lo32 y = (lo32 x * lo32 y) <<< 1 ∧
    multiplyAdd x y = multiplyAdd y x ∧ multiplyAdd x 0 = x

/-- R82: the rotate, for the four amounts: as computed by the two shifts, as the fixed permutation of the bits
(bit k of the result is bit (k + n) mod 64), and the n = 63 case as a rotate left by 1. -/
def Obligations.RotateIsAFixedBitPermutation : Prop :=
  (∀ x : Word, ∀ n ∈ [32, 24, 16, 63],
    (rotr x n).toNat = (x.toNat / 2 ^ n + x.toNat * 2 ^ (64 - n)) % 2 ^ 64 ∧
    ∀ k < 64, (rotr x n).getLsbD k = x.getLsbD ((k + n) % 64)) ∧
  (∀ x : Word, rotr x 63 = (x <<< 1) ||| (x >>> 63))

/-- R83: G is the chain of the eight stages S1 to S8, each given by the arithmetic of its source line over exact naturals,
each reading what the table says it reads. -/
def Obligations.MixerFollowsTheEightStages : Prop :=
  ∀ a b c d : Word, ∃ a1 d1 c1 b1 a2 d2 c2 b2 : Word,
    a1.toNat = (a.toNat + b.toNat + 2 * (a.toNat % 2 ^ 32) * (b.toNat % 2 ^ 32)) % 2 ^ 64 ∧
    d1.toNat = ((d ^^^ a1).toNat / 2 ^ 32 + (d ^^^ a1).toNat * 2 ^ (64 - 32)) % 2 ^ 64 ∧
    c1.toNat = (c.toNat + d1.toNat + 2 * (c.toNat % 2 ^ 32) * (d1.toNat % 2 ^ 32)) % 2 ^ 64 ∧
    b1.toNat = ((b ^^^ c1).toNat / 2 ^ 24 + (b ^^^ c1).toNat * 2 ^ (64 - 24)) % 2 ^ 64 ∧
    a2.toNat = (a1.toNat + b1.toNat + 2 * (a1.toNat % 2 ^ 32) * (b1.toNat % 2 ^ 32)) % 2 ^ 64 ∧
    d2.toNat = ((d1 ^^^ a2).toNat / 2 ^ 16 + (d1 ^^^ a2).toNat * 2 ^ (64 - 16)) % 2 ^ 64 ∧
    c2.toNat = (c1.toNat + d2.toNat + 2 * (c1.toNat % 2 ^ 32) * (d2.toNat % 2 ^ 32)) % 2 ^ 64 ∧
    b2.toNat = ((b1 ^^^ c2).toNat / 2 ^ 63 + (b1 ^^^ c2).toNat * 2 ^ (64 - 63)) % 2 ^ 64 ∧
    mixWords a b c d = (a2, b2, c2, d2)

/-- R88: G(0, 0, 0, 0) = (0, 0, 0, 0), with the two facts it rests on. -/
def Obligations.MixerKeepsZeros : Prop :=
  mixWords 0 0 0 0 = (0, 0, 0, 0) ∧ multiplyAdd 0 0 = 0 ∧ ∀ n ∈ [32, 24, 16, 63], rotr 0 n = 0

/-! ### Micro-operations -/

/-- R120: XORIN, its word and its assembly; it completes in every state, forms X, advances upc, and changes nothing
else. With A = B, X becomes all zero. Its worked example. -/
def Obligations.XorinFormsTheWorkingBlock : Prop :=
  decode (.u 0x10000000) = .xorin ∧ assembleLine ['x', 'o', 'r', 'i', 'n'] = some [.u 0x10000000] ∧
  ∀ s : State, ∃ t, exec .xorin s = .next t ∧
    (∀ i, readWord t.x i = readWord s.a i ^^^ readWord s.b i) ∧ t.upc = s.upc + 1 ∧
    SameHostSide s t ∧ t.z = s.z ∧ t.busy = s.busy ∧ t.done = s.done ∧ SameBytes s t ∧
    (s.a = s.b → ∀ i, readWord t.x i = 0) ∧
    (readWord s.a 0 = 1 → (∀ i, i ≠ 0 → readWord s.a i = 0) → (∀ i, readWord s.b i = 0) →
      readWord t.x 0 = 1 ∧ ∀ i, i ≠ 0 → readWord t.x i = 0)

/-- R86: MIX on four distinct words completes, writes G of the four words it read, in that order, and no
other X word; it advances upc and changes nothing else. With two equal indices it is refused by name, as R86 says a
model does (the refusal's name is the model's, log entry 9). Its worked example. While BUSY = 0 the engine has no step
(R128); that its turn is then a step that changes nothing is the model's form of it (log entry 2), and the last
clause states that. -/
def Obligations.MixUpdatesItsFourWords : Prop :=
  (∀ a b c d : Index, pairwiseDistinct a b c d = true → decode (.u (encodeMix a b c d)) = .mix a b c d) ∧
  (∀ (a b c d : Index) (s : State), [a, b, c, d].Nodup → ∃ t, exec (.mix a b c d) s = .next t ∧
    (readWord t.x a, readWord t.x b, readWord t.x c, readWord t.x d)
      = mixWords (readWord s.x a) (readWord s.x b) (readWord s.x c) (readWord s.x d) ∧
    (∀ i, i ≠ a → i ≠ b → i ≠ c → i ≠ d → readWord t.x i = readWord s.x i) ∧ t.upc = s.upc + 1 ∧
    SameHostSide s t ∧ t.z = s.z ∧ t.busy = s.busy ∧ t.done = s.done ∧ SameBytes s t) ∧
  (∀ (a b c d : Index) (s : State), ¬[a, b, c, d].Nodup →
    exec (.mix a b c d) s = .refused (.mixIndicesEqual a b c d)) ∧
  (∀ s t : State, readWord s.x 0 = 1 → readWord s.x 1 = 2 → readWord s.x 2 = 3 → readWord s.x 3 = 4 →
    exec (.mix 0 1 2 3) s = .next t →
    readWord t.x 0 = 0x0000010000002d07 ∧ readWord t.x 1 = 0x5a0e02060e2a0606 ∧
    readWord t.x 2 = 0x2d07000307150003 ∧ readWord t.x 3 = 0x2d07000001030000) ∧
  (∀ s : State, s.busy = false → engineTurn s = .next s)

/-- BAR advances upc and changes no other state. (Its ordering effect, the rest of R121, holds by
construction in a model that runs one entry a step.) -/
def Obligations.BarOnlyAdvances : Prop :=
  decode (.u 0x30000000) = .bar ∧
  ∀ s : State, ∃ t, exec .bar s = .next t ∧ t.upc = s.upc + 1 ∧ t.x = s.x ∧
    SameHostSide s t ∧ t.z = s.z ∧ t.busy = s.busy ∧ t.done = s.done ∧ SameBytes s t

/-- R122: XOROUT completes in every state, assembles Z, clears BUSY, sets DONE, sets upc to 0, and leaves X, A and
B and all else. When X[i] is what the permutation made of A ^ B, recomputing A ^ B and keeping it agree. The
bytes of the window outside Z and STATUS are unchanged, and no read can see DONE = 1 with part of Z. -/
def Obligations.XoroutAssemblesTheResult : Prop :=
  decode (.u 0x40000000) = .xorout ∧
  ∀ s : State, ∃ t, exec .xorout s = .next t ∧
    (∀ i, readWord t.z i = readWord s.x i ^^^ readWord s.a i ^^^ readWord s.b i) ∧
    t.busy = false ∧ t.done = true ∧ t.upc = 0 ∧ t.x = s.x ∧ SameHostSide s t ∧
    (∀ off : Offset, (off.toNat < 0x800 ∨ 0xC10 ≤ off.toNat ∨ (0xC00 ≤ off.toNat ∧ off.toNat < 0xC08)) →
      windowByte t off = windowByte s off) ∧
    (∀ i : Index, ∀ keep : Block, keep = xorBlocks s.a s.b → readWord t.z i = readWord s.x i ^^^ readWord keep i)

/-! ### Host transactions -/

/-- R142 and R144: RD.A and RD.B complete in every state, busy or not, answer the word, and change nothing. That a word
never written answers Config.resetContent, of no known value, is the model's form of the draw (log entry 1). -/
def Obligations.InputBuffersReadBack : Prop :=
  ∀ (i : Index) (s : State),
    decode (.t ⟨.read, BitVec.ofNat 12 (8 * i.toNat), .eight⟩) = .rdA i ∧
    decode (.t ⟨.read, BitVec.ofNat 12 (0x400 + 8 * i.toNat), .eight⟩) = .rdB i ∧
    (∃ t, exec (.rdA i) s = .next t ∧
      t.response = some ⟨.okay, some (readWord s.a i), none⟩ ∧ OnlyResponse s t) ∧
    (∃ t, exec (.rdB i) s = .next t ∧
      t.response = some ⟨.okay, some (readWord s.b i), none⟩ ∧ OnlyResponse s t) ∧
    readWord State.reset.a i = Config.resetContent .a i ∧ readWord State.reset.b i = Config.resetContent .b i

/-- R143 for an idle engine: WR.A completes, stores the word and its eight bytes, marks it written, answers
OKAY, and changes no other byte and nothing else, DONE and Z among it. Busy: LOCKED_BUSY and no change. -/
def Obligations.WriteToInputBufferA : Prop :=
  ∀ (i : Index) (v : Word) (s : State),
    decode (.t ⟨.write v, BitVec.ofNat 12 (8 * i.toNat), .eight⟩) = .wrA i v ∧
    (s.busy = false → ∃ t, exec (.wrA i v) s = .next t ∧ t.response = some ⟨.okay, none, none⟩ ∧
      readWord t.a i = v ∧ (∀ j, j ≠ i → readWord t.a j = readWord s.a j) ∧
      wasWritten t.aWritten i = true ∧ (∀ j, j ≠ i → wasWritten t.aWritten j = wasWritten s.aWritten j) ∧
      (∀ k : BitVec 3, windowByte t (regionOffset 0 i + k.setWidth 12) = some (wordByte v k)) ∧
      (∀ off : Offset, (off.toNat < (regionOffset 0 i).toNat ∨ (regionOffset 0 i).toNat + 8 ≤ off.toNat) →
        windowByte t off = windowByte s off) ∧
      t.b = s.b ∧ t.x = s.x ∧ t.z = s.z ∧ t.busy = s.busy ∧ t.done = s.done ∧ t.upc = s.upc ∧
      t.bWritten = s.bWritten ∧ t.inputs = s.inputs ∧ t.fetchProbe = s.fetchProbe) ∧
    (s.busy = true → ∃ t, exec (.wrA i v) s = .next t ∧
      t.response = some ⟨.error, none, some .lockedBusy⟩ ∧ OnlyResponse s t)

/-- R145, the same for WR.B at 0x400 + 8*i. -/
def Obligations.WriteToInputBufferB : Prop :=
  ∀ (i : Index) (v : Word) (s : State),
    decode (.t ⟨.write v, BitVec.ofNat 12 (0x400 + 8 * i.toNat), .eight⟩) = .wrB i v ∧
    (s.busy = false → ∃ t, exec (.wrB i v) s = .next t ∧ t.response = some ⟨.okay, none, none⟩ ∧
      readWord t.b i = v ∧ (∀ j, j ≠ i → readWord t.b j = readWord s.b j) ∧
      wasWritten t.bWritten i = true ∧ (∀ j, j ≠ i → wasWritten t.bWritten j = wasWritten s.bWritten j) ∧
      (∀ k : BitVec 3, windowByte t (regionOffset 1 i + k.setWidth 12) = some (wordByte v k)) ∧
      (∀ off : Offset, (off.toNat < (regionOffset 1 i).toNat ∨ (regionOffset 1 i).toNat + 8 ≤ off.toNat) →
        windowByte t off = windowByte s off) ∧
      t.a = s.a ∧ t.x = s.x ∧ t.z = s.z ∧ t.busy = s.busy ∧ t.done = s.done ∧ t.upc = s.upc ∧
      t.aWritten = s.aWritten ∧ t.inputs = s.inputs ∧ t.fetchProbe = s.fetchProbe) ∧
    (s.busy = true → ∃ t, exec (.wrB i v) s = .next t ∧
      t.response = some ⟨.error, none, some .lockedBusy⟩ ∧ OnlyResponse s t)

/-- R146: RD.Z completes while no run is in progress and answers the word of Z; during a run it is refused with
LOCKED_BUSY and rdata 0; it changes nothing either way. Before the first run since power-up the word is
Config.resetContent, of no known value, the model's form of the draw (log entry 1). -/
def Obligations.ResultReadsOnlyWhenIdle : Prop :=
  ∀ (i : Index) (s : State),
    decode (.t ⟨.read, BitVec.ofNat 12 (0x800 + 8 * i.toNat), .eight⟩) = .rdZ i ∧
    (s.busy = false → ∃ t, exec (.rdZ i) s = .next t ∧
      t.response = some ⟨.okay, some (readWord s.z i), none⟩ ∧ OnlyResponse s t) ∧
    (s.busy = true → ∃ t, exec (.rdZ i) s = .next t ∧
      t.response = some ⟨.error, some 0, some .lockedBusy⟩ ∧ OnlyResponse s t) ∧
    readWord State.reset.z i = Config.resetContent .z i

/-- R147 and R154: WR.Z and WR.STATUS are refused with READ_ONLY in every state, and change nothing. -/
def Obligations.ResultAndStatusAreReadOnly : Prop :=
  ∀ (i : Index) (v : Word) (s : State),
    decode (.t ⟨.write v, BitVec.ofNat 12 (0x800 + 8 * i.toNat), .eight⟩) = .wrZ i v ∧
    decode (.t ⟨.write v, 0xC08, .eight⟩) = .wrStatus v ∧
    (∃ t, exec (.wrZ i v) s = .next t ∧
      t.response = some ⟨.error, none, some .readOnly⟩ ∧ OnlyResponse s t) ∧
    (∃ t, exec (.wrStatus v) s = .next t ∧
      t.response = some ⟨.error, none, some .readOnly⟩ ∧ OnlyResponse s t)

/-- R148: RD.STATUS completes in every state, answers DONE*2 + BUSY, and changes nothing; in a state R28 allows
the value is 0, 1 or 2. -/
def Obligations.StatusReadsBusyAndDone : Prop :=
  ∀ s : State,
    decode (.t ⟨.read, 0xC08, .eight⟩) = .rdStatus ∧
    ∃ (t : State) (v : Word), exec .rdStatus s = .next t ∧ t.response = some ⟨.okay, some v, none⟩ ∧
      v.toNat = 2 * s.done.toNat + s.busy.toNat ∧ OnlyResponse s t ∧
      (StatusLegal s → v = 0 ∨ v = 1 ∨ v = 2)

/-- R149: RD.CTRL completes in every state and answers 0. -/
def Obligations.CtrlReadsZero : Prop :=
  ∀ s : State,
    decode (.t ⟨.read, 0xC00, .eight⟩) = .rdCtrl ∧
    ∃ t, exec .rdCtrl s = .next t ∧ t.response = some ⟨.okay, some 0, none⟩ ∧ OnlyResponse s t

/-- R150 to R153: WR.CTRL, all four cases. START while no run is in progress sets BUSY, clears DONE and sets upc to
0, and leaves every buffer; a write of 0 is accepted with no effect; all else is refused with no effect. -/
def Obligations.WriteToCtrl : Prop :=
  ∀ (v : Word) (s : State),
    decode (.t ⟨.write v, 0xC00, .eight⟩) = .wrCtrl v ∧
    (v = 1 → s.busy = false → ∃ t, exec (.wrCtrl v) s = .next t ∧ t.response = some ⟨.okay, none, none⟩ ∧
      t.busy = true ∧ t.done = false ∧ t.upc = 0 ∧ t.a = s.a ∧ t.b = s.b ∧ t.x = s.x ∧ t.z = s.z ∧
      t.aWritten = s.aWritten ∧ t.bWritten = s.bWritten ∧ t.inputs = s.inputs ∧ t.fetchProbe = s.fetchProbe ∧
      ∀ off : Offset, (off.toNat < 0xC08 ∨ 0xC10 ≤ off.toNat) → windowByte t off = windowByte s off) ∧
    (v = 1 → s.busy = true → ∃ t, exec (.wrCtrl v) s = .next t ∧
      t.response = some ⟨.error, none, some .lockedBusy⟩ ∧ OnlyResponse s t) ∧
    (2 ≤ v.toNat → ∃ t, exec (.wrCtrl v) s = .next t ∧
      t.response = some ⟨.error, none, some (if s.busy then .lockedBusy else .reservedBits)⟩ ∧ OnlyResponse s t) ∧
    (v = 0 → ∃ t, exec (.wrCtrl v) s = .next t ∧ t.response = some ⟨.okay, none, none⟩ ∧ OnlyResponse s t)

/-- R63: the CTRL data word 1 as an instruction of its own: START completes while no run is in progress. -/
def Obligations.StartCommandStartsARun : Prop :=
  decode (.c 1) = .start ∧
  ∀ s : State,
    (s.busy = false → ∃ t, exec .start s = .next t ∧ t.response = some ⟨.okay, none, none⟩ ∧
      t.busy = true ∧ t.done = false ∧ t.upc = 0 ∧ t.a = s.a ∧ t.b = s.b ∧ t.x = s.x ∧ t.z = s.z ∧
      t.aWritten = s.aWritten ∧ t.bWritten = s.bWritten ∧ t.inputs = s.inputs ∧ t.fetchProbe = s.fetchProbe ∧
      ∀ off : Offset, (off.toNat < 0xC08 ∨ 0xC10 ≤ off.toNat) → windowByte t off = windowByte s off) ∧
    (s.busy = true → ∃ t, exec .start s = .next t ∧
      t.response = some ⟨.error, none, some .lockedBusy⟩ ∧ OnlyResponse s t)

/-- R153 and R152: the other CTRL data words as instructions: 0 is accepted with no effect, one with a reserved bit
set is refused in every state, by RESERVED_BITS while no run is in progress and by LOCKED_BUSY during one. -/
def Obligations.OtherCtrlCommandsChangeNothing : Prop :=
  decode (.c 0) = .ctrlNop ∧ (∀ v : Word, 2 ≤ v.toNat → decode (.c v) = .ctrlReserved v) ∧
  ∀ (v : Word) (s : State),
    (∃ t, exec .ctrlNop s = .next t ∧ t.response = some ⟨.okay, none, none⟩ ∧ OnlyResponse s t) ∧
    (∃ t, exec (.ctrlReserved v) s = .next t ∧
      t.response = some ⟨.error, none, some (if s.busy then .lockedBusy else .reservedBits)⟩ ∧ OnlyResponse s t)

/-- A CTRL data word decoded on its own (format C) and the same word written at 0xC00 (format T) have one effect. -/
def Obligations.CommandsAreCtrlWrites : Prop :=
  ∀ (v : Word) (s : State), exec (decode (.c v)) s = exec (decode (.t ⟨.write v, 0xC00, .eight⟩)) s

/-- R155: the reserved offsets are refused with UNMAPPED, read and write alike; a read answers rdata = 0. -/
def Obligations.ReservedOffsetsAreUnmapped : Prop :=
  ∀ (k : Access) (off : Offset) (s : State),
    (0xC10 ≤ off.toNat → off.toNat % 8 = 0 → decode (.t ⟨k, off, .eight⟩) = .reservedT k off) ∧
    ∃ t, exec (.reservedT k off) s = .next t ∧
      t.response = some ⟨.error, (if k = .read then some 0 else none), some .unmapped⟩ ∧ OnlyResponse s t

/-- R156: every narrow or misaligned transaction is refused with BAD_ACCESS, at every offset. -/
def Obligations.NarrowAndMisalignedAreBadAccess : Prop :=
  ∀ (u : Transaction) (s : State),
    (u.size ≠ .eight ∨ u.off.toNat % 8 ≠ 0 → decode (.t u) = .badAccessT u) ∧
    ∃ t, exec (.badAccessT u) s = .next t ∧
      t.response = some ⟨.error, (if u.kind = .read then some 0 else none), some .badAccess⟩ ∧ OnlyResponse s t

/-- R140: every transaction, in every state, is answered by a next state with one response, OKAY or ERROR; a refused
one changes nothing else, and a refused read answers rdata = 0. -/
def Obligations.EveryTransactionIsAnswered : Prop :=
  ∀ (u : Transaction) (s : State), ∃ (t : State) (r : Response),
    exec (decode (.t u)) s = .next t ∧ t.response = some r ∧
    (r.resp = .error → OnlyResponse s t ∧ (u.kind = .read → r.rdata = some 0)) ∧
    (r.resp = .okay ↔ r.label = none)

/-- R141: the label of a refusal is the first that applies, in the order BAD_ACCESS, UNMAPPED, READ_ONLY, LOCKED_BUSY,
RESERVED_BITS; and no refusal changes anything else. -/
def Obligations.RefusalLabelsInOrder : Prop :=
  ∀ (u : Transaction) (s t : State) (r : Response), exec (decode (.t u)) s = .next t → t.response = some r →
    (r.label ≠ none → r.resp = .error ∧ OnlyResponse s t) ∧
    r.label =
      if u.size ≠ .eight ∨ u.off.toNat % 8 ≠ 0 then some .badAccess
      else if 0xC10 ≤ u.off.toNat then some .unmapped
      else match u.kind with
        | .read => if 0x800 ≤ u.off.toNat ∧ u.off.toNat < 0xC00 ∧ s.busy = true then some .lockedBusy else none
        | .write v =>
          if (0x800 ≤ u.off.toNat ∧ u.off.toNat < 0xC00) ∨ u.off.toNat = 0xC08 then some .readOnly
          else if s.busy = true ∧ ¬(u.off.toNat = 0xC00 ∧ v = 0) then some .lockedBusy
          else if u.off.toNat = 0xC00 ∧ 2 ≤ v.toNat then some .reservedBits
          else none

/-- R49: reads have no side effect and repeat; writes to A and B are idempotent; a START is not, since a second one
is refused. -/
def Obligations.SideEffectsOfTransactions : Prop :=
  (∀ (u : Transaction) (s t : State), u.kind = .read → exec (decode (.t u)) s = .next t →
    OnlyResponse s t ∧ exec (decode (.t u)) t = .next t) ∧
  (∀ (i : Index) (v : Word) (s t : State), exec (.wrA i v) s = .next t → exec (.wrA i v) t = .next t) ∧
  (∀ (i : Index) (v : Word) (s t : State), exec (.wrB i v) s = .next t → exec (.wrB i v) t = .next t) ∧
  (∀ s t : State, s.busy = false → exec (.wrCtrl 1) s = .next t →
    t.busy = true ∧ ∃ u, exec (.wrCtrl 1) t = .next u ∧ u ≠ t ∧ u.response = some ⟨.error, none, some .lockedBusy⟩)

/-! ### The window -/

/-- R40: word i of a block held as bytes m is the little-endian sum of its eight bytes, and byte m[8*i + j] is bits
[8*j+7 : 8*j] of word i. -/
def Obligations.BlocksAreLittleEndian : Prop :=
  ∀ (m : BitVec 10 → Byte) (i : Index),
    (readWord (blockOfBytes m) i).toNat =
      ((List.range 8).map fun j => (m (BitVec.ofNat 10 (8 * i.toNat + j))).toNat * 2 ^ (8 * j)).sum ∧
    ∀ j < 8, (readWord (blockOfBytes m) i).extractLsb' (8 * j) 8 = m (BitVec.ofNat 10 (8 * i.toNat + j)) ∧
      blockByte (blockOfBytes m) (BitVec.ofNat 10 (8 * i.toNat + j)) = m (BitVec.ofNat 10 (8 * i.toNat + j))

/-- R42: byte m[k] of block A is at offset k, of B at 0x400 + k, of Z at 0x800 + k, and the byte at off + j of a
word's offset is bits [8*j+7 : 8*j] of the word. -/
def Obligations.WindowBytesAreBlockBytes : Prop :=
  ∀ s : State,
    (∀ k < 1024, windowByte s (BitVec.ofNat 12 k) = some (blockByte s.a (BitVec.ofNat 10 k)) ∧
      windowByte s (BitVec.ofNat 12 (0x400 + k)) = some (blockByte s.b (BitVec.ofNat 10 k)) ∧
      windowByte s (BitVec.ofNat 12 (0x800 + k)) = some (blockByte s.z (BitVec.ofNat 10 k))) ∧
    (∀ (i : Index), ∀ j < 8,
      windowByte s (BitVec.ofNat 12 (8 * i.toNat + j)) = some ((readWord s.a i).extractLsb' (8 * j) 8) ∧
      windowByte s (BitVec.ofNat 12 (0x400 + 8 * i.toNat + j)) = some ((readWord s.b i).extractLsb' (8 * j) 8) ∧
      windowByte s (BitVec.ofNat 12 (0x800 + 8 * i.toNat + j)) = some ((readWord s.z i).extractLsb' (8 * j) 8))

/-- R44: the window is the 4096 addresses from BASE on, whatever BASE is. Offset off is at BASE + off, an address is that
of an offset exactly when it is BASE + off, and the addresses below BASE and from BASE + 4096 on are none of the
window's. That host addresses are natural numbers with no upper bound, so that no window wraps, is the model's
choice (log entry 17). -/
def Obligations.WindowIsFourKilobytesAtBase : Prop :=
  (∀ off : Offset, hostAddress off = Config.base + off.toNat) ∧
  (∀ (addr : Nat) (off : Offset), windowOffset addr = some off ↔ addr = Config.base + off.toNat) ∧
  (∀ addr : Nat, windowOffset addr = none ↔ addr < Config.base ∨ Config.base + 4096 ≤ addr)

/-! ### The step -/

/-- A step takes the first event to come and runs exec of the decoded unit: a transaction, a CTRL word, or, in the
engine's turn, the ROM entry at upc; with no event left it is the engine's turn. -/
def Obligations.StepRunsTheDecodedUnit : Prop :=
  (∀ (s : State) (u : Transaction) (rest : List Input), s.inputs = .host u :: rest →
    step s = exec (decode (.t u)) { s with inputs := rest }) ∧
  (∀ (s : State) (v : Word) (rest : List Input), s.inputs = .ctrl v :: rest →
    step s = exec (decode (.c v)) { s with inputs := rest }) ∧
  (∀ (s : State) (w : MicroWord) (rest : List Input), s.inputs = .engine :: rest → s.busy = true → NoProbe s →
    scheduleRom[s.upc.toNat]? = some w → step s = exec (decode (.u w)) { s with inputs := rest }) ∧
  (∀ (s : State) (w : MicroWord), s.inputs = [] → s.busy = true → NoProbe s →
    scheduleRom[s.upc.toNat]? = some w → step s = exec (decode (.u w)) s) ∧
  (∀ (s : State) (rest : List Input), s.inputs = .engine :: rest → s.busy = false →
    step s = .next { s with inputs := rest }) ∧
  (∀ s : State, s.inputs = [] → s.busy = false → step s = .next s)

/-- R170, for the machine as a whole: in every state that keeps the invariants of R28 and holds no probe, a step
answers a next state; nothing stops the machine. -/
def Obligations.NoReachableStateStops : Prop :=
  ∀ s : State, StatusLegal s → NoProbe s → ∃ t, step s = .next t

/-- R28: every step keeps the invariants on BUSY, DONE and upc. -/
def Obligations.StepKeepsStatusLegal : Prop :=
  ∀ s t : State, StatusLegal s → NoProbe s → step s = .next t → StatusLegal t ∧ NoProbe t

/-- The invariants hold at reset. -/
def Obligations.ResetMeetsTheInvariant : Prop := RunInvariant State.reset

/-- Whatever the host does between them, the engine's steps keep X on schedule: X is what the entries run so far
make of A ^ B. -/
def Obligations.StepKeepsXOnSchedule : Prop :=
  ∀ s t : State, RunInvariant s → step s = .next t → RunInvariant t

/-- R35: during a run nothing but a reset changes A or B, whoever acts. -/
def Obligations.InputsAreStableDuringARun : Prop :=
  ∀ s t : State, s.busy = true → NoResetNext s → step s = .next t →
    t.a = s.a ∧ t.b = s.b ∧ t.aWritten = s.aWritten ∧ t.bWritten = s.bWritten

/-- R23: but for reset, Z changes only at XOROUT, the step that ends a run. -/
def Obligations.OnlyXoroutWritesZ : Prop :=
  ∀ s t : State, NoProbe s → NoResetNext s → step s = .next t → t.z ≠ s.z →
    s.busy = true ∧ s.upc = 134 ∧ t.busy = false ∧ t.done = true ∧ t.upc = 0 ∧
    (∀ i, readWord t.z i = readWord s.x i ^^^ readWord s.a i ^^^ readWord s.b i)

/-- R21: the host has no access to X: no event of the host's changes X, and no response depends on it. -/
def Obligations.XIsHiddenFromTheHost : Prop :=
  (∀ (e : Encoded) (s t : State), (∀ w, e ≠ .u w) → exec (decode e) s = .next t → t.x = s.x) ∧
  (∀ (e : Encoded) (s t : State) (y : Block), (∀ w, e ≠ .u w) → exec (decode e) s = .next t →
    ∃ t', exec (decode e) { s with x := y } = .next t' ∧ t'.response = t.response ∧ t' = { t with x := y })

/-- R129: a run starts only when a START is accepted while BUSY = 0; it sets BUSY = 1, DONE = 0 and upc = 0; no run is in
progress after reset. -/
def Obligations.OnlyAnAcceptedStartStartsARun : Prop :=
  (∀ s t : State, s.busy = false → step s = .next t → t.busy = true →
    (s.inputs.head? = some (.ctrl 1) ∨ s.inputs.head? = some (.host ⟨.write 1, 0xC00, .eight⟩)) ∧
    t.done = false ∧ t.upc = 0 ∧ t.response = some ⟨.okay, none, none⟩) ∧
  State.reset.busy = false

/-- R53: while DONE = 1 every step but a reset and an accepted START keeps DONE and Z, so every read of Z answers that
result. -/
def Obligations.ResultStaysUntilTheNextStart : Prop :=
  ∀ s t : State, StatusLegal s → s.done = true → NoResetNext s → step s = .next t →
    (t.done = true ∧ t.busy = false ∧ t.z = s.z ∧ ∀ i, ∃ u, exec (.rdZ i) t = .next u ∧
        u.response = some ⟨.okay, some (readWord s.z i), none⟩) ∨
    (t.busy = true ∧ t.done = false ∧ t.z = s.z ∧
      (s.inputs.head? = some (.ctrl 1) ∨ s.inputs.head? = some (.host ⟨.write 1, 0xC00, .eight⟩)))

/-- R198: STATUS reflects an accepted START at once and never reads 0 again before a reset. -/
def Obligations.StatusIsNeverZeroAfterAStart : Prop :=
  (∀ s t : State, s.busy = false → exec (.wrCtrl 1) s = .next t → statusWord t = 1) ∧
  (∀ s t : State, NoProbe s → StatusLegal s → statusWord s ≠ 0 → NoResetNext s → step s = .next t →
    statusWord t = 1 ∨ statusWord t = 2)

/-- R174: the output done equals STATUS.DONE; it rises only at XOROUT, the engine's turn at upc 134 of a run, and falls
only at an accepted START or at reset. -/
def Obligations.DoneSignalRisesAndFalls : Prop :=
  (∀ s : State, doneSignal s = (statusWord s).getLsbD 1) ∧
  (∀ s t : State, NoProbe s → step s = .next t → doneSignal s = false → doneSignal t = true →
    (s.inputs = [] ∨ s.inputs.head? = some .engine) ∧ s.busy = true ∧ s.upc = 134 ∧
    scheduleRom[s.upc.toNat]? = some 0x40000000 ∧ exec .xorout (popInput s) = .next t) ∧
  (∀ s t : State, StatusLegal s → step s = .next t → doneSignal s = true → doneSignal t = false →
    s.inputs.head? = some (.ctrl 1) ∨ s.inputs.head? = some (.host ⟨.write 1, 0xC00, .eight⟩) ∨
    ∃ content, s.inputs.head? = some (.reset content))

/-! ### Reset -/

/-- R190 and R203: a reset, in any state, leaves BUSY = 0, DONE = 0 and upc = 0; a run in progress is abandoned, and every
buffer word is the environment's draw, of whatever value. -/
def Obligations.ResetAbandonsTheRun : Prop :=
  ∀ (s : State) (content : ResetContent) (rest : List Input), s.inputs = .reset content :: rest →
    ∃ t, step s = .next t ∧ t.busy = false ∧ t.done = false ∧ t.upc = 0 ∧ doneSignal t = false ∧
      statusWord t = 0 ∧ t.a = content.a ∧ t.b = content.b ∧ t.x = content.x ∧ t.z = content.z ∧
      t.inputs = rest ∧ NoProbe t ∧ (∀ i, wasWritten t.aWritten i = false ∧ wasWritten t.bWritten i = false)

/-- R31: the reset values of every piece of state: the status bits, upc, the done output, CTRL and STATUS as they read,
and every buffer word the OPEN draw RESET_CONTENT. (That no event is to come, no response has been given and no
probe is set are the model's own, log entries 2 to 4.) -/
def Obligations.PowerUpState : Prop :=
  let s := State.reset
  s.busy = false ∧ s.done = false ∧ s.upc = 0 ∧ doneSignal s = false ∧ statusWord s = 0 ∧
  (∃ t, exec .rdCtrl s = .next t ∧ t.response = some ⟨.okay, some 0, none⟩) ∧
  (∃ t, exec .rdStatus s = .next t ∧ t.response = some ⟨.okay, some 0, none⟩) ∧
  (∀ i, readWord s.a i = Config.resetContent .a i ∧ readWord s.b i = Config.resetContent .b i ∧
    readWord s.x i = Config.resetContent .x i ∧ readWord s.z i = Config.resetContent .z i)

/-! ### What a run computes -/

/-- R132: Compress(A, B) = Compress(B, A). -/
def Obligations.CompressIsSymmetric : Prop := ∀ p q : Block, compress p q = compress q p

/-- R133: the zero block is a fixed point. -/
def Obligations.CompressKeepsTheZeroBlock : Prop := compress zeroBlock zeroBlock = zeroBlock

/-- R134: Compress(A, A) is the zero block for every A, so it is not A for a non-zero A. -/
def Obligations.CompressOfEqualBlocksIsZero : Prop :=
  ∀ p : Block, compress p p = zeroBlock ∧ (p ≠ zeroBlock → compress p p ≠ p)

/-- R106: within a sub-pass the four quads may run in any order, in every row group and every column group. -/
def Obligations.SubPassOrderIsFree : Prop :=
  ∀ (x : Block) (l quads : List (Nat × Nat × Nat × Nat)), ∀ g < 8, quads = columnQuads ∨ quads = diagonalQuads →
    l.Perm quads →
    mixAll x (groupQuads (rowIndex g) l) = mixAll x (groupQuads (rowIndex g) quads) ∧
    mixAll x (groupQuads (colIndex g) l) = mixAll x (groupQuads (colIndex g) quads)

/-- R135: the eight row groups of step 2 may be permuted in any order, and so may the eight column groups of step 3: the
final output is that of Compress. -/
def Obligations.GroupOrderIsFree : Prop :=
  ∀ (p q : Block) (l k : List Nat), l.Perm (List.range 8) → k.Perm (List.range 8) →
    permAll rowIndex l (xorBlocks p q) = permAll rowIndex (List.range 8) (xorBlocks p q) ∧
    xorBlocks (xorBlocks (permAll colIndex k (permAll rowIndex l (xorBlocks p q))) p) q = compress p q

/-- R127 with R131 item 2: within each of the four windows of the ROM the 32 MIX entries may be performed in any order. -/
def Obligations.WindowOrderIsFree : Prop :=
  ∀ (x : Block) (l w : List MicroWord), w ∈ [windowW1, windowW2, windowW3, windowW4] → l.Perm w →
    l.foldl microEffect x = w.foldl microEffect x

/-- R131 item 3: the ROM's order, all column sub-passes and then all diagonal ones, gives the source's order, group by
group: W1 then W2 is step 2, and W3 then W4 is step 3. -/
def Obligations.RomOrderIsTheSourceOrder : Prop :=
  ∀ x : Block,
    windowW2.foldl microEffect (windowW1.foldl microEffect x) = permAll rowIndex (List.range 8) x ∧
    windowW4.foldl microEffect (windowW3.foldl microEffect x) = permAll colIndex (List.range 8) x

/-- R131: in a state the invariant allows, the engine's XOROUT step leaves Z = Compress(A, B), whatever host transactions
came between the steps of the run. -/
def Obligations.XoroutStepComputesCompress : Prop :=
  ∀ s : State, RunInvariant s → s.busy = true → s.upc = 134 →
    (s.inputs = [] ∨ s.inputs.head? = some .engine) →
    ∃ t, step s = .next t ∧ t.z = compress s.a s.b ∧ t.a = s.a ∧ t.b = s.b ∧
      t.done = true ∧ t.busy = false ∧ t.upc = 0

/-- R202 with R128: a run ends at the 135th engine step after its START, not before, with DONE = 1 and the result in Z. -/
def Obligations.RunTakes135EngineSteps : Prop :=
  ∀ s : State, s.busy = true → s.done = false → s.upc = 0 → NoProbe s → s.inputs = [] →
    (∀ k < 135, ∃ t, RunsTo k s t ∧ t.busy = true ∧ t.done = false ∧ t.upc = BitVec.ofNat 8 k) ∧
    (∃ t, RunsTo 135 s t ∧ t.busy = false ∧ t.done = true ∧ t.upc = 0 ∧
      t.z = compress s.a s.b ∧ t.a = s.a ∧ t.b = s.b)

/-- R36: however host transactions and engine turns interleave, when a run that started in s has ended and no reset came,
Z is Compress of the A and B of its start. -/
def Obligations.ResultDependsOnInputsAtStartOnly : Prop :=
  ∀ (k : Nat) (s t : State), RunInvariant s → s.busy = true → (∀ content, Input.reset content ∉ s.inputs) →
    (∀ j < k, ∀ u, RunsTo j s u → u.busy = true) → RunsTo k s t → t.busy = false →
    t.z = compress s.a s.b ∧ t.a = s.a ∧ t.b = s.b ∧ t.done = true

/-- R157: the call protocol: from any state with no run in progress, the 256 input writes in any order, START, and 135
engine steps leave Z = Compress(A, B), DONE = 1, and every input word written since the last reset; no step of the way
stops. -/
def Obligations.CallProtocolComputesCompress : Prop :=
  ∀ (s : State) (p q : Block) (writes : List Input), s.busy = false → NoProbe s →
    writes.Perm (inputWrites p q) → s.inputs = writes ++ [startWrite] →
    ∃ t, RunsTo (256 + 1 + 135) s t ∧ t.z = compress p q ∧ t.a = p ∧ t.b = q ∧ InputsWritten t ∧
      t.busy = false ∧ t.done = true ∧ statusWord t = 2

/-! ### Assembler -/

/-- R77 with R72 and R73: the spec's encoding example, from the characters of its line to ROM entry 36. -/
def Obligations.EncodingExampleOfTheSpec : Prop :=
  encodeMix 1 6 11 12 = 0x2021858C ∧ scheduleRom[36]? = some 0x2021858C ∧
  0x2 * 2 ^ 28 + 1 * 2 ^ 21 + 6 * 2 ^ 14 + 11 * 2 ^ 7 + 12 = 0x2021858C ∧
  0x20000000 + 0x00200000 + 0x00018000 + 0x00000580 + 0x0000000C = 0x2021858C ∧
  assembleLine ['m', 'i', 'x', ' ', 'x', '1', ',', ' ', 'x', '6', ',', ' ', 'x', '1', '1', ',', ' ', 'x', '1', '2'] =
    some [.u 0x2021858C]
end

