-- ==== Sys2Proof/Laws/Blocks.lean ====
section
/-! SUPPORT. The laws of the block operations: what a word reads as after a write, an exclusive or, a MIX. -/

namespace Sys2Proof.Machine

theorem index_toNat_ne {i j : Index} (h : i ≠ j) : i.toNat ≠ j.toNat :=
  fun e => h (BitVec.eq_of_toNat_eq e)

/-- Blocks with the same words are equal. -/
theorem block_ext {p q : Block} (h : ∀ i, readWord p i = readWord q i) : p = q := by
  apply Vector.ext
  intro i hi
  have := h (BitVec.ofNat 7 i)
  simpa [readWord, Nat.mod_eq_of_lt hi] using this

@[simp] theorem readWord_writeWord_same (p : Block) (i : Index) (v : Word) :
    readWord (writeWord p i v) i = v := by
  simp [readWord, writeWord]

theorem readWord_writeWord_ne (p : Block) {i j : Index} (v : Word) (h : j ≠ i) :
    readWord (writeWord p i v) j = readWord p j := by
  simp [readWord, writeWord, (index_toNat_ne h).symm]

theorem readWord_writeWord (p : Block) (i j : Index) (v : Word) :
    readWord (writeWord p i v) j = if j = i then v else readWord p j := by
  by_cases h : j = i
  · simp [h]
  · simp [h, readWord_writeWord_ne]

@[simp] theorem readWord_tabulate (f : Index → Word) (i : Index) : readWord (tabulate f) i = f i := by
  simp [readWord, tabulate]

@[simp] theorem readWord_xorBlocks (p q : Block) (i : Index) :
    readWord (xorBlocks p q) i = readWord p i ^^^ readWord q i := by
  simp [xorBlocks]

@[simp] theorem readWord_zeroBlock (i : Index) : readWord zeroBlock i = 0 := by
  simp [zeroBlock]

@[simp] theorem wasWritten_markWritten_same (m : Vector Bool 128) (i : Index) :
    wasWritten (markWritten m i) i = true := by
  simp [wasWritten, markWritten]

theorem wasWritten_markWritten_ne (m : Vector Bool 128) {i j : Index} (h : j ≠ i) :
    wasWritten (markWritten m i) j = wasWritten m j := by
  simp [wasWritten, markWritten, (index_toNat_ne h).symm]

@[simp] theorem wasWritten_replicate_false (i : Index) :
    wasWritten (Vector.replicate 128 false) i = false := by
  simp [wasWritten]

/-! ### MIX on a block -/

/-- The four indices of a quad are pairwise distinct. -/
theorem pairwiseDistinct_iff {a b c d : Index} :
    pairwiseDistinct a b c d = true ↔ a ≠ b ∧ a ≠ c ∧ a ≠ d ∧ b ≠ c ∧ b ≠ d ∧ c ≠ d := by
  simp [pairwiseDistinct, and_assoc]

/-- MIX writes G of the four named words and no other word. -/
theorem readWord_mixAt (x : Block) {a b c d : Index} (h : pairwiseDistinct a b c d = true) (i : Index) :
    readWord (mixAt x (a, b, c, d)) i =
      let g := mixWords (readWord x a) (readWord x b) (readWord x c) (readWord x d)
      if i = a then g.1 else if i = b then g.2.1 else if i = c then g.2.2.1 else if i = d then g.2.2.2
      else readWord x i := by
  obtain ⟨hab, hac, had, hbc, hbd, hcd⟩ := pairwiseDistinct_iff.1 h
  simp only [mixAt, writeQuad, readQuad, readWord_writeWord]
  split_ifs <;> simp_all

/-- MIX leaves every word its quad does not name. -/
theorem readWord_mixAt_other (x : Block) {a b c d i : Index} (ha : i ≠ a) (hb : i ≠ b) (hc : i ≠ c)
    (hd : i ≠ d) : readWord (mixAt x (a, b, c, d)) i = readWord x i := by
  simp [mixAt, writeQuad, readWord_writeWord, ha, hb, hc, hd]

end Sys2Proof.Machine
end

