-- ==== Sys2Proof/Laws/Encoding.lean ====
section
/-! SUPPORT. The fields of the encoded words. -/

namespace Sys2Proof

theorem field_toNat {n : Nat} (w : BitVec n) (lo len : Nat) :
    (w.extractLsb' lo len).toNat = w.toNat / 2 ^ lo % 2 ^ len := by
  simp [BitVec.extractLsb'_toNat, Nat.shiftRight_eq_div_pow]

/-- The MIX word as a number. -/
theorem encodeMix_toNat (a b c d : Index) :
    (encodeMix a b c d).toNat =
      2 * 2 ^ 28 + a.toNat * 2 ^ 21 + b.toNat * 2 ^ 14 + c.toNat * 2 ^ 7 + d.toNat := by
  have ha := a.isLt; have hb := b.isLt; have hc := c.isLt; have hd := d.isLt
  simp only [encodeMix, BitVec.toNat_append]
  rw [← Nat.shiftLeft_add_eq_or_of_lt hd, ← Nat.shiftLeft_add_eq_or_of_lt hc,
    ← Nat.shiftLeft_add_eq_or_of_lt hb, ← Nat.shiftLeft_add_eq_or_of_lt ha]
  simp [Nat.shiftLeft_eq]
  omega

@[simp] theorem opField_encodeMix (a b c d : Index) : opField (encodeMix a b c d) = 2 := by
  apply BitVec.eq_of_toNat_eq
  rw [opField, field_toNat, encodeMix_toNat]
  have ha := a.isLt; have hb := b.isLt; have hc := c.isLt; have hd := d.isLt
  simp; omega

@[simp] theorem iaField_encodeMix (a b c d : Index) : iaField (encodeMix a b c d) = a := by
  apply BitVec.eq_of_toNat_eq
  rw [iaField, field_toNat, encodeMix_toNat]
  have ha := a.isLt; have hb := b.isLt; have hc := c.isLt; have hd := d.isLt
  omega

@[simp] theorem ibField_encodeMix (a b c d : Index) : ibField (encodeMix a b c d) = b := by
  apply BitVec.eq_of_toNat_eq
  rw [ibField, field_toNat, encodeMix_toNat]
  have ha := a.isLt; have hb := b.isLt; have hc := c.isLt; have hd := d.isLt
  omega

@[simp] theorem icField_encodeMix (a b c d : Index) : icField (encodeMix a b c d) = c := by
  apply BitVec.eq_of_toNat_eq
  rw [icField, field_toNat, encodeMix_toNat]
  have ha := a.isLt; have hb := b.isLt; have hc := c.isLt; have hd := d.isLt
  omega

@[simp] theorem idField_encodeMix (a b c d : Index) : idField (encodeMix a b c d) = d := by
  apply BitVec.eq_of_toNat_eq
  rw [idField, field_toNat, encodeMix_toNat]
  have ha := a.isLt; have hb := b.isLt; have hc := c.isLt; have hd := d.isLt
  omega

/-- The offset of a region's word as a number. -/
theorem regionOffset_toNat (r : BitVec 2) (i : Index) :
    (regionOffset r i).toNat = r.toNat * 2 ^ 10 + i.toNat * 2 ^ 3 := by
  have hr := r.isLt; have hi := i.isLt
  simp only [regionOffset, BitVec.toNat_append]
  rw [← Nat.shiftLeft_add_eq_or_of_lt (by simp), ← Nat.shiftLeft_add_eq_or_of_lt hi]
  simp [Nat.shiftLeft_eq]
  omega

@[simp] theorem regionField_regionOffset (r : BitVec 2) (i : Index) : regionField (regionOffset r i) = r := by
  apply BitVec.eq_of_toNat_eq
  rw [regionField, field_toNat, regionOffset_toNat]
  have hr := r.isLt; have hi := i.isLt
  omega

@[simp] theorem wordField_regionOffset (r : BitVec 2) (i : Index) : wordField (regionOffset r i) = i := by
  apply BitVec.eq_of_toNat_eq
  rw [wordField, field_toNat, regionOffset_toNat]
  have hr := r.isLt; have hi := i.isLt
  omega

@[simp] theorem byteField_regionOffset (r : BitVec 2) (i : Index) : byteField (regionOffset r i) = 0 := by
  apply BitVec.eq_of_toNat_eq
  rw [byteField, field_toNat, regionOffset_toNat]
  have hr := r.isLt; have hi := i.isLt
  simp; omega

/-- An offset is its region, its word index and its byte. -/
theorem offset_toNat (off : Offset) :
    off.toNat = (regionField off).toNat * 2 ^ 10 + (wordField off).toNat * 2 ^ 3 + (byteField off).toNat := by
  have h := off.isLt
  simp only [regionField, wordField, byteField, field_toNat]
  omega

/-- An offset whose byte field is 0 is the offset of its word. -/
theorem regionOffset_fields {off : Offset} (h : byteField off = 0) :
    regionOffset (regionField off) (wordField off) = off := by
  apply BitVec.eq_of_toNat_eq
  rw [regionOffset_toNat, offset_toNat off, h]
  simp

/-- A word whose op field is 2 is the MIX word of its index fields. -/
theorem encodeMix_fields {w : MicroWord} (h : opField w = 2) :
    encodeMix (iaField w) (ibField w) (icField w) (idField w) = w := by
  apply BitVec.eq_of_toNat_eq
  have h2 : (opField w).toNat = 2 := by rw [h]; rfl
  have hw := w.isLt
  rw [encodeMix_toNat]
  simp only [opField, iaField, ibField, icField, idField, field_toNat] at *
  omega

/-- The byte field is 0 exactly for a multiple of 8. -/
theorem byteField_eq_zero_iff (off : Offset) : byteField off = 0#3 ↔ off.toNat % 8 = 0 := by
  rw [← BitVec.toNat_inj, byteField, field_toNat]
  simp

/-- The reserved check of R141 as a bound on the offset. -/
theorem reserved_le_iff (off : Offset) : (0xC10 : Offset) ≤ off ↔ 0xC10 ≤ off.toNat := Iff.rfl

/-- No buffer word's offset is reserved. -/
theorem regionOffset_not_reserved {r : BitVec 2} (h : r.toNat < 3) (i : Index) :
    ¬(0xC10 : Offset) ≤ regionOffset r i := by
  have hi := i.isLt
  rw [reserved_le_iff, regionOffset_toNat]
  omega

/-- The MIX word is none of the three fixed words. -/
theorem encodeMix_ne (a b c d : Index) :
    encodeMix a b c d ≠ 0x10000000 ∧ encodeMix a b c d ≠ 0x30000000 ∧ encodeMix a b c d ≠ 0x40000000 := by
  have h := opField_encodeMix a b c d
  refine ⟨?_, ?_, ?_⟩ <;> intro e <;> rw [e] at h <;> exact absurd h (by decide)

/-- The MIX word of four distinct indices decodes to its MIX. -/
theorem decodeMicro_encodeMix {a b c d : Index} (h : pairwiseDistinct a b c d = true) :
    decodeMicro (encodeMix a b c d) = .mix a b c d := by
  obtain ⟨h1, h2, h3⟩ := encodeMix_ne a b c d
  rw [decodeMicro, if_neg h1, if_neg h2, if_neg h3, if_pos (by simpa using h)]
  simp

/-- The transaction of a buffer word decodes by its region. -/
theorem decode_regionOffset {r : BitVec 2} (h : r.toNat < 3) (k : Access) (i : Index) :
    decode (wordTransaction k (regionOffset r i)) = dispatchTransaction k (regionOffset r i) := by
  rw [wordTransaction, decode, decodeTransaction, if_neg (by simp), if_neg (regionOffset_not_reserved h i)]

end Sys2Proof
end

