-- ==== Sys2Proof/Laws/State.lean ====
section
/-! SUPPORT. One lemma a field for each named update of State, so that no proof unfolds a record update. -/

namespace Sys2Proof.Machine

@[simp] theorem advance_a (s : State) : (advance s).a = s.a := rfl
@[simp] theorem advance_b (s : State) : (advance s).b = s.b := rfl
@[simp] theorem advance_x (s : State) : (advance s).x = s.x := rfl
@[simp] theorem advance_z (s : State) : (advance s).z = s.z := rfl
@[simp] theorem advance_busy (s : State) : (advance s).busy = s.busy := rfl
@[simp] theorem advance_done (s : State) : (advance s).done = s.done := rfl
@[simp] theorem advance_upc (s : State) : (advance s).upc = s.upc + 1 := rfl
@[simp] theorem advance_aWritten (s : State) : (advance s).aWritten = s.aWritten := rfl
@[simp] theorem advance_bWritten (s : State) : (advance s).bWritten = s.bWritten := rfl
@[simp] theorem advance_response (s : State) : (advance s).response = s.response := rfl
@[simp] theorem advance_inputs (s : State) : (advance s).inputs = s.inputs := rfl
@[simp] theorem advance_fetchProbe (s : State) : (advance s).fetchProbe = s.fetchProbe := rfl

@[simp] theorem setX_a (s : State) (blk : Block) : (setX s blk).a = s.a := rfl
@[simp] theorem setX_b (s : State) (blk : Block) : (setX s blk).b = s.b := rfl
@[simp] theorem setX_x (s : State) (blk : Block) : (setX s blk).x = blk := rfl
@[simp] theorem setX_z (s : State) (blk : Block) : (setX s blk).z = s.z := rfl
@[simp] theorem setX_busy (s : State) (blk : Block) : (setX s blk).busy = s.busy := rfl
@[simp] theorem setX_done (s : State) (blk : Block) : (setX s blk).done = s.done := rfl
@[simp] theorem setX_upc (s : State) (blk : Block) : (setX s blk).upc = s.upc := rfl
@[simp] theorem setX_aWritten (s : State) (blk : Block) : (setX s blk).aWritten = s.aWritten := rfl
@[simp] theorem setX_bWritten (s : State) (blk : Block) : (setX s blk).bWritten = s.bWritten := rfl
@[simp] theorem setX_response (s : State) (blk : Block) : (setX s blk).response = s.response := rfl
@[simp] theorem setX_inputs (s : State) (blk : Block) : (setX s blk).inputs = s.inputs := rfl
@[simp] theorem setX_fetchProbe (s : State) (blk : Block) : (setX s blk).fetchProbe = s.fetchProbe := rfl

@[simp] theorem setZ_a (s : State) (blk : Block) : (setZ s blk).a = s.a := rfl
@[simp] theorem setZ_b (s : State) (blk : Block) : (setZ s blk).b = s.b := rfl
@[simp] theorem setZ_x (s : State) (blk : Block) : (setZ s blk).x = s.x := rfl
@[simp] theorem setZ_z (s : State) (blk : Block) : (setZ s blk).z = blk := rfl
@[simp] theorem setZ_busy (s : State) (blk : Block) : (setZ s blk).busy = s.busy := rfl
@[simp] theorem setZ_done (s : State) (blk : Block) : (setZ s blk).done = s.done := rfl
@[simp] theorem setZ_upc (s : State) (blk : Block) : (setZ s blk).upc = s.upc := rfl
@[simp] theorem setZ_aWritten (s : State) (blk : Block) : (setZ s blk).aWritten = s.aWritten := rfl
@[simp] theorem setZ_bWritten (s : State) (blk : Block) : (setZ s blk).bWritten = s.bWritten := rfl
@[simp] theorem setZ_response (s : State) (blk : Block) : (setZ s blk).response = s.response := rfl
@[simp] theorem setZ_inputs (s : State) (blk : Block) : (setZ s blk).inputs = s.inputs := rfl
@[simp] theorem setZ_fetchProbe (s : State) (blk : Block) : (setZ s blk).fetchProbe = s.fetchProbe := rfl

@[simp] theorem writeA_a (s : State) (i : Index) (v : Word) : (writeA s i v).a = writeWord s.a i v := rfl
@[simp] theorem writeA_b (s : State) (i : Index) (v : Word) : (writeA s i v).b = s.b := rfl
@[simp] theorem writeA_x (s : State) (i : Index) (v : Word) : (writeA s i v).x = s.x := rfl
@[simp] theorem writeA_z (s : State) (i : Index) (v : Word) : (writeA s i v).z = s.z := rfl
@[simp] theorem writeA_busy (s : State) (i : Index) (v : Word) : (writeA s i v).busy = s.busy := rfl
@[simp] theorem writeA_done (s : State) (i : Index) (v : Word) : (writeA s i v).done = s.done := rfl
@[simp] theorem writeA_upc (s : State) (i : Index) (v : Word) : (writeA s i v).upc = s.upc := rfl
@[simp] theorem writeA_aWritten (s : State) (i : Index) (v : Word) : (writeA s i v).aWritten = markWritten s.aWritten i := rfl
@[simp] theorem writeA_bWritten (s : State) (i : Index) (v : Word) : (writeA s i v).bWritten = s.bWritten := rfl
@[simp] theorem writeA_response (s : State) (i : Index) (v : Word) : (writeA s i v).response = s.response := rfl
@[simp] theorem writeA_inputs (s : State) (i : Index) (v : Word) : (writeA s i v).inputs = s.inputs := rfl
@[simp] theorem writeA_fetchProbe (s : State) (i : Index) (v : Word) : (writeA s i v).fetchProbe = s.fetchProbe := rfl

@[simp] theorem writeB_a (s : State) (i : Index) (v : Word) : (writeB s i v).a = s.a := rfl
@[simp] theorem writeB_b (s : State) (i : Index) (v : Word) : (writeB s i v).b = writeWord s.b i v := rfl
@[simp] theorem writeB_x (s : State) (i : Index) (v : Word) : (writeB s i v).x = s.x := rfl
@[simp] theorem writeB_z (s : State) (i : Index) (v : Word) : (writeB s i v).z = s.z := rfl
@[simp] theorem writeB_busy (s : State) (i : Index) (v : Word) : (writeB s i v).busy = s.busy := rfl
@[simp] theorem writeB_done (s : State) (i : Index) (v : Word) : (writeB s i v).done = s.done := rfl
@[simp] theorem writeB_upc (s : State) (i : Index) (v : Word) : (writeB s i v).upc = s.upc := rfl
@[simp] theorem writeB_aWritten (s : State) (i : Index) (v : Word) : (writeB s i v).aWritten = s.aWritten := rfl
@[simp] theorem writeB_bWritten (s : State) (i : Index) (v : Word) : (writeB s i v).bWritten = markWritten s.bWritten i := rfl
@[simp] theorem writeB_response (s : State) (i : Index) (v : Word) : (writeB s i v).response = s.response := rfl
@[simp] theorem writeB_inputs (s : State) (i : Index) (v : Word) : (writeB s i v).inputs = s.inputs := rfl
@[simp] theorem writeB_fetchProbe (s : State) (i : Index) (v : Word) : (writeB s i v).fetchProbe = s.fetchProbe := rfl

@[simp] theorem respond_a (s : State) (r : Response) : (respond s r).a = s.a := rfl
@[simp] theorem respond_b (s : State) (r : Response) : (respond s r).b = s.b := rfl
@[simp] theorem respond_x (s : State) (r : Response) : (respond s r).x = s.x := rfl
@[simp] theorem respond_z (s : State) (r : Response) : (respond s r).z = s.z := rfl
@[simp] theorem respond_busy (s : State) (r : Response) : (respond s r).busy = s.busy := rfl
@[simp] theorem respond_done (s : State) (r : Response) : (respond s r).done = s.done := rfl
@[simp] theorem respond_upc (s : State) (r : Response) : (respond s r).upc = s.upc := rfl
@[simp] theorem respond_aWritten (s : State) (r : Response) : (respond s r).aWritten = s.aWritten := rfl
@[simp] theorem respond_bWritten (s : State) (r : Response) : (respond s r).bWritten = s.bWritten := rfl
@[simp] theorem respond_response (s : State) (r : Response) : (respond s r).response = some r := rfl
@[simp] theorem respond_inputs (s : State) (r : Response) : (respond s r).inputs = s.inputs := rfl
@[simp] theorem respond_fetchProbe (s : State) (r : Response) : (respond s r).fetchProbe = s.fetchProbe := rfl

@[simp] theorem startRun_a (s : State) : (startRun s).a = s.a := rfl
@[simp] theorem startRun_b (s : State) : (startRun s).b = s.b := rfl
@[simp] theorem startRun_x (s : State) : (startRun s).x = s.x := rfl
@[simp] theorem startRun_z (s : State) : (startRun s).z = s.z := rfl
@[simp] theorem startRun_busy (s : State) : (startRun s).busy = true := rfl
@[simp] theorem startRun_done (s : State) : (startRun s).done = false := rfl
@[simp] theorem startRun_upc (s : State) : (startRun s).upc = 0 := rfl
@[simp] theorem startRun_aWritten (s : State) : (startRun s).aWritten = s.aWritten := rfl
@[simp] theorem startRun_bWritten (s : State) : (startRun s).bWritten = s.bWritten := rfl
@[simp] theorem startRun_response (s : State) : (startRun s).response = s.response := rfl
@[simp] theorem startRun_inputs (s : State) : (startRun s).inputs = s.inputs := rfl
@[simp] theorem startRun_fetchProbe (s : State) : (startRun s).fetchProbe = s.fetchProbe := rfl

@[simp] theorem finishRun_a (s : State) : (finishRun s).a = s.a := rfl
@[simp] theorem finishRun_b (s : State) : (finishRun s).b = s.b := rfl
@[simp] theorem finishRun_x (s : State) : (finishRun s).x = s.x := rfl
@[simp] theorem finishRun_z (s : State) : (finishRun s).z = s.z := rfl
@[simp] theorem finishRun_busy (s : State) : (finishRun s).busy = false := rfl
@[simp] theorem finishRun_done (s : State) : (finishRun s).done = true := rfl
@[simp] theorem finishRun_upc (s : State) : (finishRun s).upc = 0 := rfl
@[simp] theorem finishRun_aWritten (s : State) : (finishRun s).aWritten = s.aWritten := rfl
@[simp] theorem finishRun_bWritten (s : State) : (finishRun s).bWritten = s.bWritten := rfl
@[simp] theorem finishRun_response (s : State) : (finishRun s).response = s.response := rfl
@[simp] theorem finishRun_inputs (s : State) : (finishRun s).inputs = s.inputs := rfl
@[simp] theorem finishRun_fetchProbe (s : State) : (finishRun s).fetchProbe = s.fetchProbe := rfl

@[simp] theorem popInput_a (s : State) : (popInput s).a = s.a := rfl
@[simp] theorem popInput_b (s : State) : (popInput s).b = s.b := rfl
@[simp] theorem popInput_x (s : State) : (popInput s).x = s.x := rfl
@[simp] theorem popInput_z (s : State) : (popInput s).z = s.z := rfl
@[simp] theorem popInput_busy (s : State) : (popInput s).busy = s.busy := rfl
@[simp] theorem popInput_done (s : State) : (popInput s).done = s.done := rfl
@[simp] theorem popInput_upc (s : State) : (popInput s).upc = s.upc := rfl
@[simp] theorem popInput_aWritten (s : State) : (popInput s).aWritten = s.aWritten := rfl
@[simp] theorem popInput_bWritten (s : State) : (popInput s).bWritten = s.bWritten := rfl
@[simp] theorem popInput_response (s : State) : (popInput s).response = s.response := rfl
@[simp] theorem popInput_inputs (s : State) : (popInput s).inputs = s.inputs.tail := rfl
@[simp] theorem popInput_fetchProbe (s : State) : (popInput s).fetchProbe = s.fetchProbe := rfl

@[simp] theorem pushInput_a (s : State) (e : Input) : (pushInput s e).a = s.a := rfl
@[simp] theorem pushInput_b (s : State) (e : Input) : (pushInput s e).b = s.b := rfl
@[simp] theorem pushInput_x (s : State) (e : Input) : (pushInput s e).x = s.x := rfl
@[simp] theorem pushInput_z (s : State) (e : Input) : (pushInput s e).z = s.z := rfl
@[simp] theorem pushInput_busy (s : State) (e : Input) : (pushInput s e).busy = s.busy := rfl
@[simp] theorem pushInput_done (s : State) (e : Input) : (pushInput s e).done = s.done := rfl
@[simp] theorem pushInput_upc (s : State) (e : Input) : (pushInput s e).upc = s.upc := rfl
@[simp] theorem pushInput_aWritten (s : State) (e : Input) : (pushInput s e).aWritten = s.aWritten := rfl
@[simp] theorem pushInput_bWritten (s : State) (e : Input) : (pushInput s e).bWritten = s.bWritten := rfl
@[simp] theorem pushInput_response (s : State) (e : Input) : (pushInput s e).response = s.response := rfl
@[simp] theorem pushInput_inputs (s : State) (e : Input) : (pushInput s e).inputs = e :: s.inputs := rfl
@[simp] theorem pushInput_fetchProbe (s : State) (e : Input) : (pushInput s e).fetchProbe = s.fetchProbe := rfl

@[simp] theorem clearProbe_a (s : State) : (clearProbe s).a = s.a := rfl
@[simp] theorem clearProbe_b (s : State) : (clearProbe s).b = s.b := rfl
@[simp] theorem clearProbe_x (s : State) : (clearProbe s).x = s.x := rfl
@[simp] theorem clearProbe_z (s : State) : (clearProbe s).z = s.z := rfl
@[simp] theorem clearProbe_busy (s : State) : (clearProbe s).busy = s.busy := rfl
@[simp] theorem clearProbe_done (s : State) : (clearProbe s).done = s.done := rfl
@[simp] theorem clearProbe_upc (s : State) : (clearProbe s).upc = s.upc := rfl
@[simp] theorem clearProbe_aWritten (s : State) : (clearProbe s).aWritten = s.aWritten := rfl
@[simp] theorem clearProbe_bWritten (s : State) : (clearProbe s).bWritten = s.bWritten := rfl
@[simp] theorem clearProbe_response (s : State) : (clearProbe s).response = s.response := rfl
@[simp] theorem clearProbe_inputs (s : State) : (clearProbe s).inputs = s.inputs := rfl
@[simp] theorem clearProbe_fetchProbe (s : State) : (clearProbe s).fetchProbe = none := rfl

@[simp] theorem armProbe_a (s : State) (w : MicroWord) : (armProbe s w).a = s.a := rfl
@[simp] theorem armProbe_b (s : State) (w : MicroWord) : (armProbe s w).b = s.b := rfl
@[simp] theorem armProbe_x (s : State) (w : MicroWord) : (armProbe s w).x = s.x := rfl
@[simp] theorem armProbe_z (s : State) (w : MicroWord) : (armProbe s w).z = s.z := rfl
@[simp] theorem armProbe_busy (s : State) (w : MicroWord) : (armProbe s w).busy = true := rfl
@[simp] theorem armProbe_done (s : State) (w : MicroWord) : (armProbe s w).done = false := rfl
@[simp] theorem armProbe_upc (s : State) (w : MicroWord) : (armProbe s w).upc = s.upc := rfl
@[simp] theorem armProbe_aWritten (s : State) (w : MicroWord) : (armProbe s w).aWritten = s.aWritten := rfl
@[simp] theorem armProbe_bWritten (s : State) (w : MicroWord) : (armProbe s w).bWritten = s.bWritten := rfl
@[simp] theorem armProbe_response (s : State) (w : MicroWord) : (armProbe s w).response = s.response := rfl
@[simp] theorem armProbe_inputs (s : State) (w : MicroWord) : (armProbe s w).inputs = s.inputs := rfl
@[simp] theorem armProbe_fetchProbe (s : State) (w : MicroWord) : (armProbe s w).fetchProbe = some w := rfl

@[simp] theorem applyReset_a (content : ResetContent) (s : State) : (applyReset content s).a = content.a := rfl
@[simp] theorem applyReset_b (content : ResetContent) (s : State) : (applyReset content s).b = content.b := rfl
@[simp] theorem applyReset_x (content : ResetContent) (s : State) : (applyReset content s).x = content.x := rfl
@[simp] theorem applyReset_z (content : ResetContent) (s : State) : (applyReset content s).z = content.z := rfl
@[simp] theorem applyReset_busy (content : ResetContent) (s : State) : (applyReset content s).busy = false := rfl
@[simp] theorem applyReset_done (content : ResetContent) (s : State) : (applyReset content s).done = false := rfl
@[simp] theorem applyReset_upc (content : ResetContent) (s : State) : (applyReset content s).upc = 0 := rfl
@[simp] theorem applyReset_aWritten (content : ResetContent) (s : State) : (applyReset content s).aWritten = Vector.replicate 128 false := rfl
@[simp] theorem applyReset_bWritten (content : ResetContent) (s : State) : (applyReset content s).bWritten = Vector.replicate 128 false := rfl
@[simp] theorem applyReset_response (content : ResetContent) (s : State) : (applyReset content s).response = none := rfl
@[simp] theorem applyReset_inputs (content : ResetContent) (s : State) : (applyReset content s).inputs = s.inputs := rfl
@[simp] theorem applyReset_fetchProbe (content : ResetContent) (s : State) : (applyReset content s).fetchProbe = none := rfl

end Sys2Proof.Machine
end

