-- ==== Sys2Proof/Laws/Exec.lean ====
section
/-! SUPPORT. What a step can do, said once: the cases of the host's turn, of the engine's turn and of the step. -/

namespace Sys2Proof.Machine

/-! ### Shared operations -/

theorem answerRead_eq (v : Word) (s : State) : answerRead v s = .next (respond s (okayRead v)) := rfl

theorem answerWrite_eq (s : State) : answerWrite s = .next (respond s okayWrite) := rfl

theorem raiseBusError_eq (k : Access) (e : BusError) (s : State) :
    raiseBusError k e s = .next (respond s (errorResponse k e)) := rfl

@[simp] theorem errorResponse_resp (k : Access) (e : BusError) : (errorResponse k e).resp = .error := by
  cases k <;> rfl

@[simp] theorem errorResponse_label (k : Access) (e : BusError) : (errorResponse k e).label = some e := by
  cases k <;> rfl

theorem errorResponse_rdata (k : Access) (e : BusError) :
    (errorResponse k e).rdata = if k = .read then some 0 else none := by
  cases k <;> rfl

@[simp] theorem okayRead_label (v : Word) : (okayRead v).label = none := rfl

@[simp] theorem okayRead_resp (v : Word) : (okayRead v).resp = .okay := rfl

@[simp] theorem okayWrite_label : okayWrite.label = none := rfl

@[simp] theorem okayWrite_resp : okayWrite.resp = .okay := rfl

/-- The bytes of the window depend on A, B, Z and the status bits alone. -/
theorem sameBytes_of_fields {s t : State} (ha : t.a = s.a) (hb : t.b = s.b) (hz : t.z = s.z)
    (hbusy : t.busy = s.busy) (hdone : t.done = s.done) : SameBytes s t := by
  intro off
  simp [windowByte, statusWord, ha, hb, hz, hbusy, hdone]

/-- A response changes only the response. -/
theorem onlyResponse_respond (s : State) (r : Response) : OnlyResponse s (respond s r) :=
  ⟨rfl, rfl, rfl, rfl, rfl, rfl, rfl, rfl, rfl, rfl, rfl, sameBytes_of_fields rfl rfl rfl rfl rfl⟩

theorem clearProbe_of_noProbe {s : State} (h : NoProbe s) : clearProbe s = s := by
  cases s
  simp_all [clearProbe, NoProbe]

/-! ### The host's turn -/

/-- A transaction or a CTRL word is answered by a next state. Either only the response changes, or no run is
in progress and one word of A or of B is written, or no run is in progress and the unit is START. -/
theorem host_exec_cases (e : Encoded) (he : ∀ w, e ≠ .u w) (s : State) :
    ∃ r, exec (decode e) s = .next (respond s r) ∨
      (s.busy = false ∧
        ((∃ i v, exec (decode e) s = .next (respond (writeA s i v) okayWrite)) ∨
         (∃ i v, exec (decode e) s = .next (respond (writeB s i v) okayWrite)) ∨
         ((e = .c 1 ∨ e = .t ⟨.write 1, ctrlOffset, .eight⟩) ∧
            exec (decode e) s = .next (respond (startRun s) okayWrite)))) := by
  cases e with
  | u w => exact absurd rfl (he w)
  | c v =>
    simp only [decode, decodeCommand]
    split_ifs with h0 h1
    · exact ⟨_, .inl rfl⟩
    · subst h1
      simp only [exec, execStart]
      split_ifs with hb
      · exact ⟨_, .inl rfl⟩
      · exact ⟨okayWrite, .inr ⟨by simpa using hb, .inr (.inr ⟨by simp, rfl⟩)⟩⟩
    · exact ⟨_, .inl rfl⟩
  | t t =>
    obtain ⟨k, off, z⟩ := t
    simp only [decode, decodeTransaction]
    split_ifs with hbad hres
    · exact ⟨_, .inl rfl⟩
    · exact ⟨_, .inl rfl⟩
    · have hz : z = .eight := by
        by_contra hne
        exact hbad (.inl hne)
      subst hz
      cases k with
      | read =>
        simp only [dispatchTransaction]
        split_ifs
        · exact ⟨_, .inl rfl⟩
        · exact ⟨_, .inl rfl⟩
        · simp only [exec, execRdZ]
          split_ifs <;> exact ⟨_, .inl rfl⟩
        · exact ⟨_, .inl rfl⟩
        · exact ⟨_, .inl rfl⟩
      | write v =>
        simp only [dispatchTransaction]
        split_ifs with _ _ _ hctrl
        · simp only [exec, execWrA]
          split_ifs with hb
          · exact ⟨_, .inl rfl⟩
          · exact ⟨okayWrite, .inr ⟨by simpa using hb, .inl ⟨_, _, rfl⟩⟩⟩
        · simp only [exec, execWrB]
          split_ifs with hb
          · exact ⟨_, .inl rfl⟩
          · exact ⟨okayWrite, .inr ⟨by simpa using hb, .inr (.inl ⟨_, _, rfl⟩)⟩⟩
        · exact ⟨_, .inl rfl⟩
        · simp only [exec, execWrCtrl]
          split_ifs with h0 hb hr
          · exact ⟨_, .inl rfl⟩
          · exact ⟨_, .inl rfl⟩
          · exact ⟨_, .inl rfl⟩
          · have hv : v = 1 := by
              have hr' := congrArg BitVec.toNat (not_not.1 hr)
              rw [field_toNat] at hr'
              apply BitVec.eq_of_toNat_eq
              have h0' : v.toNat ≠ 0 := fun h => h0 (BitVec.eq_of_toNat_eq h)
              have := v.isLt
              simp at hr' ⊢
              omega
            subst hv
            subst hctrl
            exact ⟨okayWrite, .inr ⟨by simpa using hb, .inr (.inr ⟨by simp, rfl⟩)⟩⟩
        · exact ⟨_, .inl rfl⟩

/-! ### The engine's turn -/

/-- What each ROM entry decodes to: XORIN first, XOROUT last, and BAR or a proper MIX between. -/
def romInstrOk (k : Nat) : Instr → Bool
  | .xorin => k == 0
  | .bar => 0 < k && k < 134
  | .mix a b c d => 0 < k && k < 134 && pairwiseDistinct a b c d
  | .xorout => k == 134
  | .reservedU _ | .rdA _ | .wrA _ _ | .rdB _ | .wrB _ _ | .rdZ _ | .wrZ _ _ => false
  | .rdCtrl | .wrCtrl _ | .rdStatus | .wrStatus _ | .reservedT _ _ | .badAccessT _ => false
  | .start | .ctrlNop | .ctrlReserved _ => false

def romEntryOk (k : Nat) (w : MicroWord) : Bool := romInstrOk k (decodeMicro w)

theorem rom_length : scheduleRom.length = 135 := by decide +kernel

theorem rom_entries_ok : (scheduleRom.zipIdx.all fun p => romEntryOk p.2 p.1) = true := by decide +kernel

theorem rom_entry_ok {k : Nat} {w : MicroWord} (h : scheduleRom[k]? = some w) : romEntryOk k w = true := by
  have := List.all_eq_true.1 rom_entries_ok (w, k)
  exact this (List.mem_zipIdx_iff_getElem?.2 (by simpa using h))

/-- The meaning of an instruction a ROM entry may decode to. -/
theorem exec_rom_instr {k : Nat} {i : Instr}
    (hk : romInstrOk k i = true) (s : State) :
    (k = 0 ∧ exec i s = .next (advance (setX s (xorBlocks s.a s.b)))) ∨
    (0 < k ∧ k < 134 ∧ exec i s = .next (advance (setX s (instrEffect s.x i)))) ∨
    (k = 134 ∧ exec i s = .next (finishRun (setZ s (xorBlocks (xorBlocks s.x s.a) s.b)))) := by
  cases i <;> simp only [romInstrOk, Bool.and_eq_true, decide_eq_true_eq, beq_iff_eq, Bool.false_eq_true] at hk
  case xorin => exact .inl ⟨hk, rfl⟩
  case bar => exact .inr (.inl ⟨hk.1, hk.2, rfl⟩)
  case mix a b c d => exact .inr (.inl ⟨hk.1.1, hk.1.2, by rw [exec, execMix, if_pos hk.2]; rfl⟩)
  case xorout => exact .inr (.inr ⟨hk, rfl⟩)

/-- A ROM entry's meaning: XORIN at 0, XOROUT at 134, and between them only X and upc change. -/
theorem exec_rom_entry {k : Nat} {w : MicroWord} (h : scheduleRom[k]? = some w) (s : State) :
    (k = 0 ∧ exec (decode (.u w)) s = .next (advance (setX s (xorBlocks s.a s.b)))) ∨
    (0 < k ∧ k < 134 ∧ exec (decode (.u w)) s = .next (advance (setX s (microEffect s.x w)))) ∨
    (k = 134 ∧ exec (decode (.u w)) s = .next (finishRun (setZ s (xorBlocks (xorBlocks s.x s.a) s.b)))) :=
  exec_rom_instr (rom_entry_ok h) s

/-- The engine's turn during a run, in a state the invariant of R28 allows. -/
theorem engineTurn_cases {s : State} (hl : s.upc.toNat ≤ 134) (hp : NoProbe s) (hb : s.busy = true) :
    ∃ w, scheduleRom[s.upc.toNat]? = some w ∧ engineTurn s = exec (decode (.u w)) s ∧
      ((s.upc.toNat = 0 ∧ engineTurn s = .next (advance (setX s (xorBlocks s.a s.b)))) ∨
       (0 < s.upc.toNat ∧ s.upc.toNat < 134 ∧ engineTurn s = .next (advance (setX s (microEffect s.x w)))) ∨
       (s.upc.toNat = 134 ∧ engineTurn s = .next (finishRun (setZ s (xorBlocks (xorBlocks s.x s.a) s.b))))) := by
  have hlt : s.upc.toNat < scheduleRom.length := by rw [rom_length]; omega
  have hw := List.getElem?_eq_getElem hlt
  have he : engineTurn s = exec (decode (.u scheduleRom[s.upc.toNat])) s := by
    have hf : fetchMicroWord s = some scheduleRom[s.upc.toNat] := by
      simp only [NoProbe] at hp
      simp [fetchMicroWord, hp, hw]
    simp [engineTurn, hb, hf, clearProbe_of_noProbe hp]
  refine ⟨_, hw, he, ?_⟩
  rw [he]
  exact exec_rom_entry hw s

theorem engineTurn_idle {s : State} (hb : s.busy = false) : engineTurn s = .next s := by
  simp [engineTurn, hb]

end Sys2Proof.Machine
end

