-- ==== Sys2Proof/Laws/Mixing.lean ====
section
/-! SUPPORT. MIXes of disjoint quads commute, and two lists of quads that differ only by moving disjoint quads past one
another act alike (R106, R131). -/

namespace Sys2Proof.Machine

/-- The four indices of a quad. -/
def quadIndices (q : Quad) : List Index := [q.1, q.2.1, q.2.2.1, q.2.2.2]

/-- Two quads share no index. -/
def disjointQuads (p q : Quad) : Bool := (quadIndices p).all fun i => !(quadIndices q).contains i

/-- A quad's indices are pairwise distinct. -/
def properQuad (q : Quad) : Bool := pairwiseDistinct q.1 q.2.1 q.2.2.1 q.2.2.2

theorem disjointQuads_comm {p q : Quad} (h : disjointQuads p q = true) : disjointQuads q p = true := by
  simp_all [disjointQuads, quadIndices]
  tauto

/-- MIX leaves the words of a disjoint quad. -/
theorem readQuad_mixAt_disjoint (x : Block) {p q : Quad} (h : disjointQuads p q = true) :
    readQuad (mixAt x q) p = readQuad x p := by
  obtain ⟨a, b, c, d⟩ := q
  simp only [disjointQuads, quadIndices, List.all_cons, List.all_nil, List.contains_cons, List.contains_nil,
    Bool.or_false, Bool.and_true, Bool.and_eq_true, Bool.not_eq_true', Bool.or_eq_false_iff, beq_eq_false_iff_ne] at h
  obtain ⟨⟨h1, h2, h3, h4⟩, ⟨h5, h6, h7, h8⟩, ⟨h9, h10, h11, h12⟩, h13, h14, h15, h16⟩ := h
  simp [readQuad, readWord_mixAt_other, *]

/-- MIXes of disjoint quads commute. -/
theorem mixAt_comm (x : Block) {p q : Quad} (h : disjointQuads p q = true) :
    mixAt (mixAt x p) q = mixAt (mixAt x q) p := by
  have hq := readQuad_mixAt_disjoint x (disjointQuads_comm h)
  have hp := readQuad_mixAt_disjoint x h
  apply block_ext
  intro i
  by_cases hi : i ∈ quadIndices p
  · have hiq : i ∉ quadIndices q := by
      simp only [disjointQuads, List.all_eq_true] at h
      simpa using h i hi
    simp only [quadIndices, List.mem_cons, List.not_mem_nil, or_false, not_or] at hiq
    obtain ⟨h1, h2, h3, h4⟩ := hiq
    rw [show q = (q.1, q.2.1, q.2.2.1, q.2.2.2) from rfl, readWord_mixAt_other _ h1 h2 h3 h4]
    rw [← show q = (q.1, q.2.1, q.2.2.1, q.2.2.2) from rfl]
    conv_rhs => rw [mixAt, hp]
    simp only [mixAt, writeQuad, readWord_writeWord, quadIndices, List.mem_cons, List.not_mem_nil, or_false] at hi ⊢
    split_ifs <;> simp_all
  · simp only [quadIndices, List.mem_cons, List.not_mem_nil, or_false, not_or] at hi
    obtain ⟨h1, h2, h3, h4⟩ := hi
    conv_rhs => rw [show p = (p.1, p.2.1, p.2.2.1, p.2.2.2) from rfl, readWord_mixAt_other _ h1 h2 h3 h4]
    conv_lhs => rw [mixAt, hq]
    simp only [mixAt, writeQuad, readWord_writeWord]
    rw [show p = (p.1, p.2.1, p.2.2.1, p.2.2.2) from rfl] at *
    split_ifs <;> rfl

@[simp] theorem mixAll_nil (x : Block) : mixAll x [] = x := rfl

@[simp] theorem mixAll_cons (x : Block) (q : Quad) (l : List Quad) : mixAll x (q :: l) = mixAll (mixAt x q) l := rfl

theorem mixAll_append (x : Block) (l m : List Quad) : mixAll x (l ++ m) = mixAll (mixAll x l) m := by
  simp [mixAll, List.foldl_append]

/-- A quad disjoint from all of a list may be moved past it. -/
theorem mixAll_mixAt_comm (x : Block) {q : Quad} {l : List Quad} (h : ∀ p ∈ l, disjointQuads q p = true) :
    mixAll (mixAt x q) l = mixAt (mixAll x l) q := by
  induction l generalizing x with
  | nil => rfl
  | cons p l ih =>
    simp only [mixAll_cons]
    rw [mixAt_comm x (h p (by simp)), ih _ fun r hr => h r (by simp [hr])]

/-- Pairwise disjoint quads may be taken in any order. -/
theorem mixAll_perm {l m : List Quad} (h : l.Perm m) (hd : l.Pairwise fun p q => disjointQuads p q = true)
    (x : Block) : mixAll x l = mixAll x m := by
  induction h generalizing x with
  | nil => rfl
  | cons q _ ih => exact ih hd.of_cons _
  | swap p q l =>
    simp only [mixAll_cons]
    rw [mixAt_comm]
    have := hd
    simp only [List.pairwise_cons] at this
    exact this.1 p (by simp)
  | trans h1 _ ih1 ih2 =>
    rw [ih1 hd, ih2 (h1.pairwise hd fun {_ _} h => disjointQuads_comm h)]

/-- The list l turns into m by moving quads forward past disjoint ones. -/
def movesInto : List Quad → List Quad → Bool
  | l, [] => l.isEmpty
  | l, q :: m =>
    (l.takeWhile (· != q)).all (fun p => disjointQuads q p) && l.contains q && movesInto (l.erase q) m

theorem takeWhile_erase {q : Quad} {l : List Quad} (h : q ∈ l) :
    ∃ rest, l = l.takeWhile (· != q) ++ q :: rest ∧ l.erase q = l.takeWhile (· != q) ++ rest := by
  induction l with
  | nil => simp at h
  | cons p l ih =>
    by_cases hp : p = q
    · subst hp
      exact ⟨l, by simp⟩
    · obtain ⟨rest, h1, h2⟩ := ih (by simpa [Ne.symm hp] using h)
      refine ⟨rest, ?_, ?_⟩
      · have : (p != q) = true := by simpa using hp
        simp only [List.takeWhile_cons, this, if_true, List.cons_append, List.cons.injEq, true_and]
        exact h1
      · have : (p != q) = true := by simpa using hp
        rw [List.erase_cons_tail (by simpa using hp), h2]
        simp [this]

/-- Two lists related by movesInto act alike. -/
theorem mixAll_movesInto {l m : List Quad} (h : movesInto l m = true) (x : Block) : mixAll x l = mixAll x m := by
  induction m generalizing l x with
  | nil =>
    cases l with
    | nil => rfl
    | cons _ _ => simp [movesInto] at h
  | cons q m ih =>
    simp only [movesInto, Bool.and_eq_true, List.all_eq_true, List.contains_iff_mem] at h
    obtain ⟨⟨hd, hm⟩, hrec⟩ := h
    obtain ⟨rest, h1, h2⟩ := takeWhile_erase hm
    have := ih hrec (mixAt x q)
    rw [h2, mixAll_append, mixAll_mixAt_comm x hd] at this
    rw [mixAll_cons, ← this]
    conv_lhs => rw [h1]
    rw [mixAll_append, mixAll_cons]

/-- PERM of a list of groups is MIX of a list of quads. -/
theorem permAll_eq_mixAll (m : Nat → Nat → Index) (groups : List Nat) (x : Block) :
    permAll m groups x =
      mixAll x (groups.flatMap fun g => groupQuads (m g) columnQuads ++ groupQuads (m g) diagonalQuads) := by
  induction groups generalizing x with
  | nil => rfl
  | cons g groups ih =>
    have h : permAll m (g :: groups) x = permAll m groups (perm (m g) x) := by
      simp only [permAll, List.foldl_cons]
    rw [h, ih, List.flatMap_cons, mixAll_append, mixAll_append, perm]

end Sys2Proof.Machine
end

