-- ==== Sys2Proof/Laws/PerInstr.lean ====
section
/-! SUPPORT. The family RoundTrip: a well-formed instruction's encoding decodes to it, one lemma a constructor. -/

namespace Sys2Proof.Laws.RoundTrip

/-- Decoding the encoding of a well-formed instruction gives it back. -/
def Statement (i : Instr) : Prop := i.wellFormed = true → decode (encode i) = i

theorem xorin : Statement .xorin := fun _ => rfl

theorem mix (a b c d : Index) : Statement (.mix a b c d) := fun h => decodeMicro_encodeMix h

theorem bar : Statement .bar := fun _ => rfl

theorem xorout : Statement .xorout := fun _ => rfl

theorem reservedU (w : MicroWord) : Statement (.reservedU w) := by
  intro h
  simp only [Instr.wellFormed, reservedMicroWord] at h
  rw [encode, decode, decodeMicro, if_neg (by rintro rfl; revert h; decide),
    if_neg (by rintro rfl; revert h; decide), if_neg (by rintro rfl; revert h; decide), if_neg]
  rintro ⟨ho, hd⟩
  have ho' : w.toNat / 2 ^ 28 = 2 := by
    have := congrArg BitVec.toNat ho
    rw [opField, field_toNat] at this
    have hw := w.isLt
    simp at this
    omega
  rw [if_pos ho'] at h
  simp only [iaField, ibField, icField, idField] at hd
  simp [hd] at h

theorem rdA (i : Index) : Statement (.rdA i) := fun _ => by
  rw [encode, decode_regionOffset (by decide)]
  simp [dispatchTransaction]

theorem wrA (i : Index) (v : Word) : Statement (.wrA i v) := fun _ => by
  rw [encode, decode_regionOffset (by decide)]
  simp [dispatchTransaction]

theorem rdB (i : Index) : Statement (.rdB i) := fun _ => by
  rw [encode, decode_regionOffset (by decide)]
  simp [dispatchTransaction]

theorem wrB (i : Index) (v : Word) : Statement (.wrB i v) := fun _ => by
  rw [encode, decode_regionOffset (by decide)]
  simp [dispatchTransaction]

theorem rdZ (i : Index) : Statement (.rdZ i) := fun _ => by
  rw [encode, decode_regionOffset (by decide)]
  simp [dispatchTransaction]

theorem wrZ (i : Index) (v : Word) : Statement (.wrZ i v) := fun _ => by
  rw [encode, decode_regionOffset (by decide)]
  simp [dispatchTransaction]

theorem rdCtrl : Statement .rdCtrl := fun _ => by decide

theorem wrCtrl (v : Word) : Statement (.wrCtrl v) := fun _ => by
  rw [encode, wordTransaction, decode, decodeTransaction,
    if_neg (show ¬(Size.eight ≠ .eight ∨ byteField ctrlOffset ≠ 0) by decide),
    if_neg (show ¬((0xC10 : Offset) ≤ ctrlOffset) by decide)]
  simp only [dispatchTransaction]
  rw [if_neg (show regionField ctrlOffset ≠ 0 by decide), if_neg (show regionField ctrlOffset ≠ 1 by decide),
    if_neg (show regionField ctrlOffset ≠ 2 by decide), if_pos trivial]

theorem rdStatus : Statement .rdStatus := fun _ => by decide

theorem wrStatus (v : Word) : Statement (.wrStatus v) := fun _ => by
  rw [encode, wordTransaction, decode, decodeTransaction,
    if_neg (show ¬(Size.eight ≠ .eight ∨ byteField statusOffset ≠ 0) by decide),
    if_neg (show ¬((0xC10 : Offset) ≤ statusOffset) by decide)]
  simp only [dispatchTransaction]
  rw [if_neg (show regionField statusOffset ≠ 0 by decide), if_neg (show regionField statusOffset ≠ 1 by decide),
    if_neg (show regionField statusOffset ≠ 2 by decide), if_neg (show statusOffset ≠ ctrlOffset by decide)]

theorem reservedT (kind : Access) (off : Offset) : Statement (.reservedT kind off) := by
  intro h
  simp only [Instr.wellFormed, reservedOffset, Bool.and_eq_true, decide_eq_true_eq, beq_iff_eq] at h
  have hb := (byteField_eq_zero_iff off).2 h.2
  rw [encode, wordTransaction, decode, decodeTransaction, if_neg (by simp [hb]),
    if_pos (show (0xC10 : Offset) ≤ off from h.1)]

theorem badAccessT (t : Transaction) : Statement (.badAccessT t) := by
  intro h
  simp only [Instr.wellFormed, badAccess, Bool.or_eq_true, bne_iff_ne] at h
  rw [encode, decode, decodeTransaction, if_pos]
  exact h.imp id fun h => by simpa [byteField_eq_zero_iff] using h

theorem start : Statement .start := fun _ => rfl

theorem ctrlNop : Statement .ctrlNop := fun _ => rfl

theorem ctrlReserved (v : Word) : Statement (.ctrlReserved v) := by
  intro h
  simp only [Instr.wellFormed] at h
  rw [encode, decode, decodeCommand, if_neg (by rintro rfl; simp at h), if_neg (by rintro rfl; simp at h)]

end Sys2Proof.Laws.RoundTrip
end

