-- ==== Sys2Proof/Laws/Schedule.lean ====
section
/-! SUPPORT. The ROM as lists of quads, and what X holds along the schedule. -/

namespace Sys2Proof.Machine

/-- The MIX word of a proper quad acts as the quad. -/
theorem microEffect_encodeMix (x : Block) {q : Quad} (h : properQuad q = true) :
    microEffect x (encodeMix q.1 q.2.1 q.2.2.1 q.2.2.2) = mixAt x q := by
  obtain ⟨a, b, c, d⟩ := q
  rw [microEffect, decodeMicro_encodeMix h]
  rfl

/-- A list of MIX words acts as its list of quads. -/
theorem foldl_microEffect_mixWordsOf (x : Block) {l : List Quad} (h : ∀ q ∈ l, properQuad q = true) :
    (mixWordsOf l).foldl microEffect x = mixAll x l := by
  induction l generalizing x with
  | nil => rfl
  | cons q l ih =>
    simp only [mixWordsOf, List.map_cons, List.foldl_cons, mixAll_cons]
    rw [microEffect_encodeMix x (h q (by simp))]
    exact ih _ fun r hr => h r (by simp [hr])

theorem windowW1_eq : windowW1 = mixWordsOf (windowQuads rowIndex columnQuads) := by decide +kernel

theorem windowW2_eq : windowW2 = mixWordsOf (windowQuads rowIndex diagonalQuads) := by decide +kernel

theorem windowW3_eq : windowW3 = mixWordsOf (windowQuads colIndex columnQuads) := by decide +kernel

theorem windowW4_eq : windowW4 = mixWordsOf (windowQuads colIndex diagonalQuads) := by decide +kernel

/-- The quads of every window are proper and pairwise disjoint. -/
def quadsApart : List Quad → Bool
  | [] => true
  | q :: l => properQuad q && l.all (fun p => disjointQuads q p) && quadsApart l

theorem quadsApart_pairwise {l : List Quad} (h : quadsApart l = true) :
    l.Pairwise fun p q => disjointQuads p q = true := by
  induction l with
  | nil => exact .nil
  | cons q l ih =>
    simp only [quadsApart, Bool.and_eq_true, List.all_eq_true] at h
    exact List.pairwise_cons.2 ⟨h.1.2, ih h.2⟩

theorem quadsApart_proper {l : List Quad} (h : quadsApart l = true) : ∀ q ∈ l, properQuad q = true := by
  induction l with
  | nil => simp
  | cons q l ih =>
    simp only [quadsApart, Bool.and_eq_true] at h
    intro r hr
    rcases List.mem_cons.1 hr with rfl | hr
    · exact h.1.1
    · exact ih h.2 r hr

theorem windowQuads_row_column_apart : quadsApart (windowQuads rowIndex columnQuads) = true := by decide +kernel

theorem windowQuads_row_diagonal_apart : quadsApart (windowQuads rowIndex diagonalQuads) = true := by decide +kernel

theorem windowQuads_col_column_apart : quadsApart (windowQuads colIndex columnQuads) = true := by decide +kernel

theorem windowQuads_col_diagonal_apart : quadsApart (windowQuads colIndex diagonalQuads) = true := by decide +kernel

/-- BAR leaves X. -/
theorem microEffect_bar (x : Block) : microEffect x 0x30000000 = x := rfl

/-- X on schedule: one more entry. -/
theorem scheduledX_succ (a b : Block) {k : Nat} {w : MicroWord} (hk : 1 ≤ k) (h : scheduleRom[k]? = some w) :
    scheduledX a b (k + 1) = microEffect (scheduledX a b k) w := by
  have ht : scheduleRom.take (k + 1) = scheduleRom.take k ++ [w] := by
    rw [List.take_add_one, h]
    rfl
  have hl : k < scheduleRom.length := (List.getElem?_eq_some_iff.1 h).1
  rw [scheduledX, ht, List.drop_append_of_le_length (by simp; omega), List.foldl_append]
  rfl

/-- X on schedule after XORIN. -/
theorem scheduledX_one (a b : Block) : scheduledX a b 1 = xorBlocks a b := rfl

end Sys2Proof.Machine
end

