-- ==== Sys2Proof/Laws/Step.lean ====
section
/-! SUPPORT. The inversion lemmas of the step: from "it answers next t", what t is. -/

namespace Sys2Proof.Machine

/-- The state after a unit of the host's: only the response is new; or, with no run in progress, a word of A or
of B is written; or, with no run in progress, the unit is START and a run starts. -/
inductive HostEffect (s : State) (e : Encoded) : State → Prop where
  | answered (r : Response) : HostEffect s e (respond s r)
  | wroteA (i : Index) (v : Word) (idle : s.busy = false) : HostEffect s e (respond (writeA s i v) okayWrite)
  | wroteB (i : Index) (v : Word) (idle : s.busy = false) : HostEffect s e (respond (writeB s i v) okayWrite)
  | started (idle : s.busy = false) (isStart : e = .c 1 ∨ e = .t ⟨.write 1, ctrlOffset, .eight⟩) :
      HostEffect s e (respond (startRun s) okayWrite)

theorem host_effect {e : Encoded} (he : ∀ w, e ≠ .u w) {s t : State} (h : exec (decode e) s = .next t) :
    HostEffect s e t := by
  obtain ⟨r, h1 | ⟨hb, ⟨i, v, h1⟩ | ⟨i, v, h1⟩ | ⟨h2, h1⟩⟩⟩ := host_exec_cases e he s <;> rw [h1] at h <;> cases h
  · exact .answered _
  · exact .wroteA _ _ hb
  · exact .wroteB _ _ hb
  · exact .started hb h2

/-- The unit of the host's that the next event brings. -/
def hostUnit (s : State) (e : Encoded) : Prop :=
  (∃ u, e = .t u ∧ s.inputs.head? = some (.host u)) ∨ (∃ v, e = .c v ∧ s.inputs.head? = some (.ctrl v))

/-- It is the engine's turn: its event is next, or no event is left. -/
def engineNext (s : State) : Prop := s.inputs = [] ∨ s.inputs.head? = some .engine

theorem popInput_of_nil {s : State} (h : s.inputs = []) : popInput s = s := by
  cases s
  simp_all [popInput]

theorem step_engine {s : State} (h : engineNext s) : step s = engineTurn (popInput s) := by
  rcases h with h | h
  · rw [popInput_of_nil h, step, h]
  · obtain ⟨r, hr⟩ := List.head?_eq_some_iff.1 h
    rw [step, hr]

/-- The three kinds of step, by the next event. -/
theorem step_next_cases {s t : State} (h : step s = .next t) :
    (∃ c, s.inputs.head? = some (.reset c) ∧ t = applyReset c (popInput s)) ∨
    (∃ e, hostUnit s e ∧ HostEffect (popInput s) e t) ∨
    (engineNext s ∧ engineTurn (popInput s) = .next t) := by
  rw [step] at h
  split at h
  · rename_i hi
    exact .inr (.inr ⟨.inl hi, by rwa [popInput_of_nil hi]⟩)
  · rename_i rest hi
    exact .inr (.inr ⟨.inr (by simp [hi]), h⟩)
  · rename_i u rest hi
    exact .inr (.inl ⟨.t u, .inl ⟨u, rfl, by simp [hi]⟩, host_effect (by simp) h⟩)
  · rename_i v rest hi
    exact .inr (.inl ⟨.c v, .inr ⟨v, rfl, by simp [hi]⟩, host_effect (by simp) h⟩)
  · rename_i c rest hi
    cases h
    exact .inl ⟨c, by simp [hi], rfl⟩

/-- The engine's turn, in a state the invariants allow: no step while idle; else XORIN at 0, XOROUT at 134, and a
BAR or a MIX between. -/
theorem engineTurn_next_cases {s t : State} (hl : s.busy = true → s.upc.toNat ≤ 134) (hp : NoProbe s)
    (h : engineTurn s = .next t) :
    (s.busy = false ∧ t = s) ∨
    (s.busy = true ∧ s.upc.toNat = 0 ∧ t = advance (setX s (xorBlocks s.a s.b))) ∨
    (s.busy = true ∧ 0 < s.upc.toNat ∧ s.upc.toNat < 134 ∧
      ∃ w, scheduleRom[s.upc.toNat]? = some w ∧ t = advance (setX s (microEffect s.x w))) ∨
    (s.busy = true ∧ s.upc.toNat = 134 ∧ t = finishRun (setZ s (xorBlocks (xorBlocks s.x s.a) s.b))) := by
  cases hb : s.busy
  · rw [engineTurn_idle hb] at h
    simp_all
  · obtain ⟨w, hw, -, ⟨h0, h1⟩ | ⟨h0, h0', h1⟩ | ⟨h0, h1⟩⟩ := engineTurn_cases (hl hb) hp hb <;> rw [h1] at h <;>
      cases h
    · exact .inr (.inl ⟨rfl, h0, rfl⟩)
    · exact .inr (.inr (.inl ⟨rfl, h0, h0', w, hw, rfl⟩))
    · exact .inr (.inr (.inr ⟨rfl, h0, rfl⟩))

/-- upc advances by 1 below its last value. -/
theorem upc_succ_toNat {u : BitVec 8} (h : u.toNat < 255) : (u + 1).toNat = u.toNat + 1 := by
  simp [BitVec.toNat_add]
  omega

/-! ### Runs -/

theorem runsTo_zero {s t : State} (h : RunsTo 0 s t) : t = s := by
  cases h
  rfl

/-- A run of k + 1 steps is a step and a run of k. -/
theorem runsTo_succ {k : Nat} {s u t : State} (h : step s = .next u) : RunsTo (k + 1) s t ↔ RunsTo k u t := by
  simp [RunsTo, Host.Core.run, core, h]

@[simp] theorem inputWrites_length (p q : Block) : (inputWrites p q).length = 256 := by
  simp [inputWrites]

/-- An event of the loading writes is the write of a word of A or of B. -/
theorem mem_inputWrites {p q : Block} {e : Input} :
    e ∈ inputWrites p q ↔ ∃ i : Index,
      e = wordWrite (regionOffset 0 i) (readWord p i) ∨ e = wordWrite (regionOffset 1 i) (readWord q i) := by
  simp only [inputWrites, List.mem_append, List.mem_map, List.mem_range]
  constructor
  · rintro (⟨k, -, rfl⟩ | ⟨k, -, rfl⟩)
    · exact ⟨_, .inl rfl⟩
    · exact ⟨_, .inr rfl⟩
  · rintro ⟨i, rfl | rfl⟩
    · exact .inl ⟨i.toNat, i.isLt, by simp⟩
    · exact .inr ⟨i.toNat, i.isLt, by simp⟩

theorem step_host {s : State} {u : Transaction} {rest : List Input} (h : s.inputs = .host u :: rest) :
    step s = exec (decode (.t u)) (popInput s) := by
  rw [step, h]
  rfl

/-- The step of a write of a word of A, while no run is in progress. -/
theorem step_write_a {s : State} {i : Index} {v : Word} {rest : List Input}
    (h : s.inputs = wordWrite (regionOffset 0 i) v :: rest) (hb : s.busy = false) :
    step s = .next (respond (writeA (popInput s) i v) okayWrite) := by
  have hd : decode (.t ⟨.write v, regionOffset 0 i, .eight⟩) = .wrA i v := Laws.RoundTrip.wrA i v rfl
  rw [step_host h, hd, exec, execWrA, if_neg (by simp [hb]), answerWrite_eq]

/-- The step of a write of a word of B, while no run is in progress. -/
theorem step_write_b {s : State} {i : Index} {v : Word} {rest : List Input}
    (h : s.inputs = wordWrite (regionOffset 1 i) v :: rest) (hb : s.busy = false) :
    step s = .next (respond (writeB (popInput s) i v) okayWrite) := by
  have hd : decode (.t ⟨.write v, regionOffset 1 i, .eight⟩) = .wrB i v := Laws.RoundTrip.wrB i v rfl
  rw [step_host h, hd, exec, execWrB, if_neg (by simp [hb]), answerWrite_eq]

/-- The step of the write of START, while no run is in progress. -/
theorem step_write_start {s : State} {rest : List Input} (h : s.inputs = startWrite :: rest) (hb : s.busy = false) :
    step s = .next (respond (startRun (popInput s)) okayWrite) := by
  have hd : decode (.t ⟨.write 1, ctrlOffset, .eight⟩) = .wrCtrl 1 := Laws.RoundTrip.wrCtrl 1 rfl
  rw [step_host h, hd, exec, execWrCtrl, if_neg (by decide), if_neg (by simp [hb]), if_neg (by decide), answerWrite_eq]

theorem runsTo_one {s t : State} (h : step s = .next t) : RunsTo 1 s t := (runsTo_succ h).2 rfl

end Sys2Proof.Machine
end

