-- ==== Sys2Proof/Tests/Slice0.lean ====
section
/-! SUPPORT. Small tests: ill-formed terms, words written out from the spec's encodings, the spec's vectors, one step each,
and for every statement with hypotheses a state and operands that meet them. -/

namespace Sys2Proof.Tests

open Sys2Proof.Machine

/-! ### Well-formedness: an ill-formed term for each check -/

theorem test_ill_mix_ab : (Instr.mix 5 5 6 7).wellFormed = false := by decide
theorem test_ill_mix_cd : (Instr.mix 0 1 127 127).wellFormed = false := by decide
theorem test_ill_mix_ad : (Instr.mix 9 1 2 9).wellFormed = false := by decide
theorem test_ill_reservedU_xorin : (Instr.reservedU 0x10000000).wellFormed = false := by decide
theorem test_ill_reservedU_mix : (Instr.reservedU 0x2021858C).wellFormed = false := by decide
theorem test_ill_reservedT_status : (Instr.reservedT .read 0xC08).wellFormed = false := by decide
theorem test_ill_reservedT_odd : (Instr.reservedT .read 0xC11).wellFormed = false := by decide
theorem test_ill_badAccessT : (Instr.badAccessT ⟨.read, 0x008, .eight⟩).wellFormed = false := by decide
theorem test_ill_ctrlReserved_zero : (Instr.ctrlReserved 0).wellFormed = false := by decide
theorem test_ill_ctrlReserved_one : (Instr.ctrlReserved 1).wellFormed = false := by decide

/-! ### Decoding: words from R62, R65, R66, R63 and V-ENC, one or more for every constructor -/

theorem test_decode_xorin : decode (.u 0b00010000000000000000000000000000) = .xorin := by decide
/-- 0010 | 0000001 | 0000110 | 0001011 | 0001100: mix x1, x6, x11, x12 (R77). -/
theorem test_decode_mix : decode (.u 0b00100000001000011000010110001100) = .mix 1 6 11 12 := by decide
/-- V-ENC: 0x2FFFBEFC. -/
theorem test_decode_mix_top : decode (.u 0x2FFFBEFC) = .mix 127 126 125 124 := by decide
theorem test_decode_bar : decode (.u 0b00110000000000000000000000000000) = .bar := by decide
theorem test_decode_xorout : decode (.u 0b01000000000000000000000000000000) = .xorout := by decide
/-- V-ENC: the decode corner cases that are reserved. -/
theorem test_decode_reservedU : ([0x00000000, 0x50000000, 0xF0000000, 0x10000001, 0x30200000, 0x20000000].all
    fun w => decide (decode (.u w) = .reservedU w)) = true := by decide +kernel
/-- off = 00 | 1111111 | 000. -/
theorem test_decode_rdA : decode (.t ⟨.read, 0b001111111000, .eight⟩) = .rdA 127 := by decide
theorem test_decode_wrA : decode (.t ⟨.write 3, 0b000000101000, .eight⟩) = .wrA 5 3 := by decide
/-- off = 01 | 0000001 | 000. -/
theorem test_decode_rdB : decode (.t ⟨.read, 0b010000001000, .eight⟩) = .rdB 1 := by decide
theorem test_decode_wrB : decode (.t ⟨.write 7, 0b011111111000, .eight⟩) = .wrB 127 7 := by decide
/-- off = 10 | 0000111 | 000. -/
theorem test_decode_rdZ : decode (.t ⟨.read, 0b100000111000, .eight⟩) = .rdZ 7 := by decide
theorem test_decode_wrZ : decode (.t ⟨.write 1, 0b100000000000, .eight⟩) = .wrZ 0 1 := by decide
theorem test_decode_rdCtrl : decode (.t ⟨.read, 0b110000000000, .eight⟩) = .rdCtrl := by decide
theorem test_decode_wrCtrl : decode (.t ⟨.write 3, 0b110000000000, .eight⟩) = .wrCtrl 3 := by decide
theorem test_decode_rdStatus : decode (.t ⟨.read, 0b110000001000, .eight⟩) = .rdStatus := by decide
theorem test_decode_wrStatus : decode (.t ⟨.write 0, 0b110000001000, .eight⟩) = .wrStatus 0 := by decide
/-- V-HOST-22, 23: the first and the last reserved offset. -/
theorem test_decode_reservedT : decode (.t ⟨.read, 0xC10, .eight⟩) = .reservedT .read 0xC10 ∧
    decode (.t ⟨.write 0, 0xFF8, .eight⟩) = .reservedT (.write 0) 0xFF8 := by decide
/-- V-HOST-24, 25, 26. -/
theorem test_decode_badAccessT : decode (.t ⟨.write 1, 0x000, .four⟩) = .badAccessT ⟨.write 1, 0x000, .four⟩ ∧
    decode (.t ⟨.read, 0x004, .eight⟩) = .badAccessT ⟨.read, 0x004, .eight⟩ ∧
    decode (.t ⟨.read, 0xC11, .one⟩) = .badAccessT ⟨.read, 0xC11, .one⟩ := by decide
theorem test_decode_start : decode (.c 0x0000000000000001) = .start := by decide
theorem test_decode_ctrlNop : decode (.c 0x0000000000000000) = .ctrlNop := by decide
theorem test_decode_ctrlReserved : decode (.c 0x8000000000000001) = .ctrlReserved 0x8000000000000001 := by decide

/-- The opcode table's numbering: format U and C words whole, format T by the offset, bit 12 the kind. -/
theorem test_table_words : decodeTableWord 32 0x40000000 = some .xorout ∧ decodeTableWord 16 0x7F8 = some (.rdB 127) ∧
    decodeTableWord 16 0x1C00 = some (.wrCtrl 0) ∧ decodeTableWord 64 1 = some .start ∧
    decodeTableWord 16 0x2000 = none := by decide

/-! ### The WordMixer's vectors -/

/-- V-MA-3, 4, 5, 10. -/
theorem test_multiplyAdd : multiplyAdd 2 3 = 0x11 ∧ multiplyAdd 0xffffffff 0xffffffff = 0xfffffffe00000000 ∧
    multiplyAdd 0xffffffffffffffff 0xffffffffffffffff = 0xfffffffc00000000 ∧
    multiplyAdd 0xffffffff 1 = 0x2fffffffe := by decide
/-- V-ROT-2 and V-ROT-4. -/
theorem test_rotr : rotr 0x8000000000000000 63 = 1 ∧ rotr 0x0123456789abcdef 32 = 0x89abcdef01234567 ∧
    rotr 0x0123456789abcdef 24 = 0xabcdef0123456789 ∧ rotr 0x0123456789abcdef 16 = 0xcdef0123456789ab ∧
    rotr 0x0123456789abcdef 63 = 0x02468acf13579bde := by decide
/-- V-MIX-5. -/
theorem test_mixWords : mixWords 0x0123456789abcdef 0xfedcba9876543210 0x0f1e2d3c4b5a6978 0x8796a5b4c3d2e1f0 =
    (0xcf91aecfafa873ea, 0x8eda3c2ee8387799, 0x55bdad4303820779, 0x2631c68056e0577a) := by decide +kernel
/-- V-MIX-2. -/
theorem test_mixWords_ones : mixWords (-1) (-1) (-1) (-1) =
    (0x000003fbfffffb00, 0xe61bf809c845f607, 0xf30dfffb1bdd0003, 0xfb03fffffc04ffff) := by decide +kernel
/-- V-PERM-1, words v0 and v15. -/
theorem test_perm : let y := perm (rowIndex 0) (tabulate fun i => i.setWidth 64)
    readWord y 0 = 0x3bce1ccd56d0db35 ∧ readWord y 15 = 0x4c1b185e3a641fc4 := by decide +kernel
/-- V-PERM-3, column groups 1 and 7. -/
theorem test_groups : (List.range 4).map (colIndex 1) = [2, 3, 18, 19] ∧ colIndex 7 15 = 127 ∧ rowIndex 7 0 = 112 := by
  decide

/-! ### One step on a small state -/

/-- A state with zero buffers, but for A[0] = 1. -/
def small (busy done : Bool) (upc : BitVec 8) (inputs : List Input) : State where
  a := writeWord zeroBlock 0 1
  b := zeroBlock
  x := zeroBlock
  z := zeroBlock
  busy := busy
  done := done
  upc := upc
  aWritten := Vector.replicate 128 true
  bWritten := Vector.replicate 128 true
  response := none
  inputs := inputs
  fetchProbe := none

def idle : State := small false false 0 []
def busyAt (k : BitVec 8) : State := small true false k []
def finished : State := small false true 0 []

/-- What a step leaves, as far as a test reads it. -/
def after {α : Type} (o : Host.Outcome State Fault Refusal) (f : State → α) : Option α :=
  match o with
  | .next t => some (f t)
  | .fault _ => none
  | .refused _ => none

/-- V-XOR-1's shape and V-STEP-1. -/
theorem test_step_xorin : after (step (busyAt 0)) (fun t => (readWord t.x 0, readWord t.x 1, t.upc)) = some (1, 0, 1) := by
  decide +kernel
/-- V-MIX-6 at ROM entry 2, whose a is X[0]. -/
theorem test_step_mix : after (step { busyAt 2 with x := writeWord zeroBlock 0 1 })
    (fun t => (readWord t.x 0, readWord t.x 4, readWord t.x 8, readWord t.x 12, readWord t.x 1, t.upc)) =
    some (0x301, 0x0602000200020200, 0x0301000100010000, 0x0301000000010000, 0, 3) := by decide +kernel
/-- V-STEP-3. -/
theorem test_step_bar : after (step (busyAt 133)) (fun t => (t.upc, t.busy)) = some (134, true) := by decide +kernel
/-- V-STEP-4 and V-XOR-2. -/
theorem test_step_xorout : after (step { busyAt 134 with x := writeWord zeroBlock 0 0x13f722ff1cf4c6f5 })
    (fun t => (readWord t.z 0, t.busy, t.done, t.upc)) = some (0x13f722ff1cf4c6f4, false, true, 0) := by decide +kernel
/-- V-STEP-5. -/
theorem test_step_idle : step idle = .next idle := rfl
/-- R67: a reserved word is refused by name. -/
theorem test_step_reservedU : step (State.reset.withFetchWord 32 0x50000000) = .refused (.reservedMicroOp 0x50000000) := rfl
/-- R86: a MIX with equal indices is refused by name. -/
theorem test_exec_mix_equal : exec (.mix 3 1 3 0) idle = .refused (.mixIndicesEqual 3 1 3 0) := rfl

def answer (s : State) (i : Instr) : Option (Option Response) := after (exec i s) State.response
def ok (v : Word) : Option (Option Response) := some (some ⟨.okay, some v, none⟩)
def okay : Option (Option Response) := some (some ⟨.okay, none, none⟩)
def readError (e : BusError) : Option (Option Response) := some (some ⟨.error, some 0, some e⟩)
def writeError (e : BusError) : Option (Option Response) := some (some ⟨.error, none, some e⟩)

/-- V-HOST-3, 4, 7. -/
theorem test_rdA_rdB : answer idle (.rdA 0) = ok 1 ∧ answer (busyAt 9) (.rdA 127) = ok 0 ∧ answer (busyAt 9) (.rdB 0) = ok 0 := by
  decide +kernel
/-- V-HOST-1, 2. -/
theorem test_wrA : after (exec (.wrA 5 7) idle) (fun t => (readWord t.a 5, readWord t.a 0, readWord t.b 5)) = some (7, 1, 0) ∧
    answer (busyAt 0) (.wrA 0 1) = writeError .lockedBusy := by decide +kernel
/-- V-HOST-5, 6. -/
theorem test_wrB : after (exec (.wrB 127 7) finished) (fun t => (readWord t.b 127, readWord t.a 127, t.done)) = some (7, 0, true) ∧
    answer (busyAt 0) (.wrB 0 5) = writeError .lockedBusy := by decide +kernel
/-- V-HOST-28: the byte at offset 0x028 is 0x88. -/
theorem test_byte_lane : after (exec (.wrA 5 0x1122334455667788) idle) (fun t => (windowByte t 0x028, windowByte t 0x02F)) =
    some (some 0x88, some 0x11) := by decide +kernel
/-- V-HOST-9. -/
theorem test_rdZ : answer (busyAt 1) (.rdZ 0) = readError .lockedBusy ∧ answer finished (.rdZ 0) = ok 0 := by decide +kernel
/-- V-HOST-10, 11. -/
theorem test_wrZ : answer idle (.wrZ 0 1) = writeError .readOnly ∧ answer (busyAt 1) (.wrZ 0 1) = writeError .readOnly := by
  decide +kernel
/-- V-HOST-12. -/
theorem test_rdStatus : answer idle .rdStatus = ok 0 ∧ answer (busyAt 5) .rdStatus = ok 1 ∧ answer finished .rdStatus = ok 2 := by
  decide +kernel
/-- V-HOST-13. -/
theorem test_rdCtrl : answer (busyAt 5) .rdCtrl = ok 0 := by decide +kernel
/-- V-HOST-15, 16. -/
theorem test_wrCtrl_start : after (exec (.wrCtrl 1) finished) (fun t => (t.busy, t.done, t.upc)) = some (true, false, 0) ∧
    answer (busyAt 5) (.wrCtrl 1) = writeError .lockedBusy := by decide +kernel
/-- V-HOST-17 to 20. -/
theorem test_wrCtrl_reserved : answer idle (.wrCtrl 3) = writeError .reservedBits ∧
    answer idle (.wrCtrl 0x8000000000000000) = writeError .reservedBits ∧
    answer (busyAt 5) (.wrCtrl 2) = writeError .lockedBusy ∧ answer (busyAt 5) (.wrCtrl 0) = okay := by decide +kernel
/-- V-HOST-21. -/
theorem test_wrStatus : after (exec (.wrStatus 0) finished) (fun t => t.done) = some true ∧
    answer finished (.wrStatus 0) = writeError .readOnly := by decide +kernel
/-- V-HOST-22 to 25. -/
theorem test_refused_offsets : answer idle (.reservedT .read 0xC10) = readError .unmapped ∧
    answer idle (.reservedT (.write 0) 0xFF8) = writeError .unmapped ∧
    answer idle (.badAccessT ⟨.write 1, 0x000, .four⟩) = writeError .badAccess ∧
    answer idle (.badAccessT ⟨.read, 0x004, .eight⟩) = readError .badAccess := by decide +kernel
/-- R63, as format C: START, no-op and reserved bits. -/
theorem test_commands : after (exec .start idle) (fun t => (t.busy, t.upc)) = some (true, 0) ∧
    answer (busyAt 3) .start = writeError .lockedBusy ∧ answer (busyAt 3) .ctrlNop = okay ∧
    answer idle (.ctrlReserved 2) = writeError .reservedBits := by decide +kernel
/-- V-RST-2. -/
theorem test_reset : after (step (small true false 70 [.reset ⟨zeroBlock, zeroBlock, zeroBlock, zeroBlock⟩, .engine]))
    (fun t => (t.busy, t.done, t.upc, t.inputs.length)) = some (false, false, 0, 1) := by decide +kernel
/-- From reset, withFetchWord runs the very unit: a MIX advances upc, a STATUS read answers 0. -/
theorem test_withFetchWord : after (step (State.reset.withFetchWord 32 0x2021858C)) (fun t => (t.upc, t.busy)) = some (1, true) ∧
    after (step (State.reset.withFetchWord 16 0xC08)) State.response = ok 0 ∧
    after (step (State.reset.withFetchWord 64 1)) (fun t => (t.busy, t.inputs)) = some (true, []) := by decide +kernel

/-! ### The assembler (R72 to R76) -/

/-- wr.b 127, 7 ; a comment -/
theorem test_assemble_write : assembleLine ['W', 'R', '.', 'b', ' ', '1', '2', '7', ',', ' ', '0', 'x', '7', ' ', ';', '!'] =
    some [.t ⟨.write 7, 0x7F8, .eight⟩] := by decide +kernel
/-- rd.1 0xC11, and perm.row 0's fifth line, which is its bar. -/
theorem test_assemble_read : assembleLine ['r', 'd', '.', '1', ' ', '0', 'x', 'C', '1', '1'] = some [.t ⟨.read, 0xC11, .one⟩] ∧
    (permListing (rowIndex 0))[4]? = some (.u 0x30000000) := by decide +kernel

/-! ### Witnesses: every statement's hypotheses are met -/

theorem witness_DecodeAndEncodeAreInverse : (Instr.mix 127 0 63 64).wellFormed = true ∧ (Instr.reservedU 0).wellFormed = true ∧
    (Instr.reservedT .read 0xC10).wellFormed = true ∧ (Instr.reservedT (.write 1) 0xFF8).wellFormed = true ∧
    (Instr.badAccessT ⟨.read, 0xFFF, .eight⟩).wellFormed = true ∧ (Instr.ctrlReserved 2).wellFormed = true := by decide

theorem witness_TransactionsDispatchByOffset :
    decode (.t ⟨.read, 0x3F8, .eight⟩) = .rdA 127 ∧ decode (.t ⟨.read, 0x400, .eight⟩) = .rdB 0 ∧
    decode (.t ⟨.read, 0x7F8, .eight⟩) = .rdB 127 ∧ decode (.t ⟨.read, 0x800, .eight⟩) = .rdZ 0 ∧
    decode (.t ⟨.read, 0xBF8, .eight⟩) = .rdZ 127 ∧ decode (.t ⟨.read, 0xC00, .eight⟩) = .rdCtrl ∧
    decode (.t ⟨.read, 0xC08, .eight⟩) = .rdStatus ∧ decode (.t ⟨.read, 0xC10, .eight⟩) = .reservedT .read 0xC10 := by decide

theorem witness_XorinFormsTheWorkingBlock : (∃ s : State, s.a = s.b) ∧
    (readWord idle.a 0 = 1 ∧ (∀ i, i ≠ 0 → readWord idle.a i = 0) ∧ ∀ i, readWord idle.b i = 0) :=
  ⟨⟨{ idle with a := zeroBlock }, rfl⟩, by simp [idle, small], fun i hi => by
      rw [idle, small, readWord_writeWord_ne _ _ hi, readWord_zeroBlock],
    fun i => by simp [idle, small]⟩

/-- X[0..3] = 1, 2, 3, 4. -/
def mixState : State := { busyAt 2 with x := tabulate fun i => i.setWidth 64 + 1 }

theorem witness_MixUpdatesItsFourWords : [(127 : Index), 126, 125, 124].Nodup ∧ ¬[(0 : Index), 1, 2, 0].Nodup ∧
    (readWord mixState.x 0 = 1 ∧ readWord mixState.x 1 = 2 ∧ readWord mixState.x 2 = 3 ∧ readWord mixState.x 3 = 4 ∧
      ∃ t, exec (.mix 0 1 2 3) mixState = .next t) ∧ idle.busy = false :=
  ⟨by decide, by decide, ⟨by decide +kernel, by decide +kernel, by decide +kernel, by decide +kernel, ⟨_, rfl⟩⟩, rfl⟩

/-- The bounds of XOROUT's clause on the window's bytes. -/
theorem witness_XoroutAssemblesTheResult : (0x7FF : Offset).toNat < 0x800 ∧ 0xC10 ≤ (0xC10 : Offset).toNat ∧
    (0xC00 ≤ (0xC00 : Offset).toNat ∧ (0xC00 : Offset).toNat < 0xC08) ∧
    (0xC00 ≤ (0xC07 : Offset).toNat ∧ (0xC07 : Offset).toNat < 0xC08) := by decide

/-- Of the host's statements: an idle and a busy state, and the bytes just below and just above the stored word. -/
theorem witness_WriteToInputBufferA : idle.busy = false ∧ (busyAt 134).busy = true ∧
    (0x3F7 < (regionOffset 0 127).toNat ∧ (regionOffset 0 127).toNat + 8 = 0x400) := by decide
theorem witness_WriteToInputBufferB : finished.busy = false ∧ (busyAt 0).busy = true ∧
    (0x3FF < (regionOffset 1 0).toNat ∧ (regionOffset 1 0).toNat + 8 = 0x408) := by decide
theorem witness_ResultReadsOnlyWhenIdle : finished.busy = false ∧ (busyAt 134).busy = true := by decide

theorem idle_legal : StatusLegal idle := by unfold StatusLegal; decide
theorem busy_legal : StatusLegal (busyAt 134) := by unfold StatusLegal; decide
theorem finished_legal : StatusLegal finished := by unfold StatusLegal; decide

theorem witness_StatusReadsBusyAndDone : StatusLegal idle ∧ StatusLegal (busyAt 134) ∧ StatusLegal finished :=
  ⟨idle_legal, busy_legal, finished_legal⟩

theorem witness_WriteToCtrl : (idle.busy = false ∧ (busyAt 1).busy = true) ∧ 2 ≤ (2 : Word).toNat ∧ 2 ≤ (-1 : Word).toNat ∧
    (0xC07 : Offset).toNat < 0xC08 ∧ 0xC10 ≤ (0xC10 : Offset).toNat := by decide
theorem witness_StartCommandStartsARun : finished.busy = false ∧ (busyAt 1).busy = true ∧ (0xC07 : Offset).toNat < 0xC08 ∧
    0xC10 ≤ (0xC10 : Offset).toNat := by decide
theorem witness_OtherCtrlCommandsChangeNothing : 2 ≤ (2 : Word).toNat ∧ 2 ≤ (-1 : Word).toNat := by decide
theorem witness_ReservedOffsetsAreUnmapped : (0xC10 ≤ (0xC10 : Offset).toNat ∧ (0xC10 : Offset).toNat % 8 = 0) ∧
    (0xC10 ≤ (0xFF8 : Offset).toNat ∧ (0xFF8 : Offset).toNat % 8 = 0) := by decide
theorem witness_NarrowAndMisalignedAreBadAccess : Size.four ≠ .eight ∧ (0xFFF : Offset).toNat % 8 ≠ 0 := by decide

theorem witness_EveryTransactionIsAnswered : answer (busyAt 0) (decode (.t ⟨.read, 0x800, .eight⟩)) = readError .lockedBusy ∧
    answer idle (decode (.t ⟨.write 0, 0xC00, .eight⟩)) = okay := by decide +kernel

/-- Each clause of the label order: bad access at a reserved offset, unmapped, read-only while busy, locked, reserved bits, none. -/
theorem witness_RefusalLabelsInOrder :
    answer idle (decode (.t ⟨.read, 0xC11, .one⟩)) = readError .badAccess ∧
    answer idle (decode (.t ⟨.write 0, 0xC10, .eight⟩)) = writeError .unmapped ∧
    answer (busyAt 0) (decode (.t ⟨.write 0, 0xBF8, .eight⟩)) = writeError .readOnly ∧
    answer (busyAt 0) (decode (.t ⟨.write 2, 0xC00, .eight⟩)) = writeError .lockedBusy ∧
    answer idle (decode (.t ⟨.write 2, 0xC00, .eight⟩)) = writeError .reservedBits ∧
    answer (busyAt 0) (decode (.t ⟨.write 0, 0xC00, .eight⟩)) = okay := by decide +kernel

theorem witness_SideEffectsOfTransactions : (∃ t, exec (decode (.t ⟨.read, 0xC08, .eight⟩)) idle = .next t) ∧
    (∃ t, exec (.wrA 127 9) idle = .next t) ∧ (∃ t, exec (.wrB 0 9) idle = .next t) ∧
    (idle.busy = false ∧ ∃ t, exec (.wrCtrl 1) idle = .next t) :=
  ⟨⟨_, rfl⟩, ⟨_, rfl⟩, ⟨_, rfl⟩, rfl, ⟨_, rfl⟩⟩

theorem witness_RotateIsAFixedBitPermutation : 63 ∈ [32, 24, 16, 63] ∧ 63 < 64 := by decide
theorem witness_BlocksAreLittleEndian : 0 < 8 ∧ 7 < 8 := by decide
theorem witness_WindowBytesAreBlockBytes : 0 < 1024 ∧ 1023 < 1024 ∧ 7 < 8 := by decide
/-- The first and the last address of the window, and the addresses just outside it. -/
theorem witness_WindowIsFourKilobytesAtBase : Config.base = Config.base + (0x000 : Offset).toNat ∧
    Config.base + 4095 = Config.base + (0xFFF : Offset).toNat ∧ Config.base + 4096 ≤ Config.base + 4096 ∧
    (0 < Config.base → Config.base - 1 < Config.base) :=
  ⟨rfl, rfl, le_rfl, fun h => by omega⟩

/-! #### The step -/

theorem witness_StepRunsTheDecodedUnit :
    (small false false 0 [.host ⟨.read, 0, .eight⟩]).inputs = [.host ⟨.read, 0, .eight⟩] ∧
    (small false false 0 [.ctrl 1]).inputs = [.ctrl 1] ∧
    ((small true false 134 [.engine]).inputs = [.engine] ∧ (small true false 134 [.engine]).busy = true ∧
      NoProbe (small true false 134 [.engine]) ∧ scheduleRom[134]? = some 0x40000000) ∧
    ((busyAt 0).inputs = [] ∧ NoProbe (busyAt 0) ∧ scheduleRom[0]? = some 0x10000000) ∧
    (small false false 0 [.engine]).busy = false ∧ (idle.inputs = [] ∧ idle.busy = false) :=
  ⟨rfl, rfl, ⟨rfl, rfl, rfl, by decide⟩, ⟨rfl, rfl, by decide⟩, rfl, rfl, rfl⟩

theorem witness_NoReachableStateStops : StatusLegal (busyAt 134) ∧ NoProbe (busyAt 134) := ⟨busy_legal, rfl⟩

theorem witness_StepKeepsStatusLegal : StatusLegal finished ∧ NoProbe finished ∧ step finished = .next finished :=
  ⟨finished_legal, rfl, rfl⟩

/-- A state at the last entry of a run on A and B, X as the schedule has made it. -/
def lastEntry : State := { busyAt 134 with x := scheduledX (busyAt 134).a (busyAt 134).b 134 }

theorem lastEntry_legal : StatusLegal lastEntry := by
  simp [StatusLegal, lastEntry, busyAt, small]

theorem lastEntry_invariant : RunInvariant lastEntry := by
  refine ⟨lastEntry_legal, rfl, fun _ _ => ?_⟩
  have h : lastEntry.upc.toNat = 134 := by decide
  rw [h, lastEntry]

/-- The state one step after lastEntry. -/
def lastDone : State := finishRun (setZ lastEntry (xorBlocks (xorBlocks lastEntry.x lastEntry.a) lastEntry.b))

theorem lastEntry_step : step lastEntry = .next lastDone := by
  have hu : lastEntry.upc.toNat = 134 := by decide
  obtain ⟨_, _, _, h | h | h⟩ := engineTurn_cases (s := lastEntry) (by omega) rfl rfl
  · omega
  · omega
  · rw [step_engine (.inl rfl), popInput_of_nil rfl, h.2, lastDone]

theorem witness_StepKeepsXOnSchedule : RunInvariant lastEntry ∧ step lastEntry = .next lastDone :=
  ⟨lastEntry_invariant, lastEntry_step⟩

theorem witness_InputsAreStableDuringARun : lastEntry.busy = true ∧ NoResetNext lastEntry ∧ step lastEntry = .next lastDone :=
  ⟨rfl, fun _ => by simp [lastEntry, busyAt, small], lastEntry_step⟩

/-- XOROUT with X = 0 and A[0] = 1 changes Z. -/
theorem witness_OnlyXoroutWritesZ : NoProbe (busyAt 134) ∧ NoResetNext (busyAt 134) ∧
    ∃ t, step (busyAt 134) = .next t ∧ readWord t.z 0 ≠ readWord (busyAt 134).z 0 :=
  ⟨rfl, fun _ => by simp [busyAt, small],
    finishRun (setZ (busyAt 134) (xorBlocks (xorBlocks (busyAt 134).x (busyAt 134).a) (busyAt 134).b)), rfl, by decide +kernel⟩

theorem witness_XIsHiddenFromTheHost : (∀ w, Encoded.c 1 ≠ .u w) ∧ ∃ t, exec (decode (.c 1)) idle = .next t :=
  ⟨fun _ => by simp, ⟨_, rfl⟩⟩

theorem witness_OnlyAnAcceptedStartStartsARun :
    (small false true 0 [.ctrl 1]).busy = false ∧
    ∃ t, step (small false true 0 [.ctrl 1]) = .next t ∧ t.busy = true :=
  ⟨rfl, _, rfl, rfl⟩

theorem witness_ResultStaysUntilTheNextStart : StatusLegal finished ∧ finished.done = true ∧ NoResetNext finished ∧
    step finished = .next finished :=
  ⟨finished_legal, rfl, fun _ => by simp [finished, small], rfl⟩

theorem witness_StatusIsNeverZeroAfterAStart :
    (idle.busy = false ∧ ∃ t, exec (.wrCtrl 1) idle = .next t) ∧
    (NoProbe finished ∧ StatusLegal finished ∧ statusWord finished ≠ 0 ∧ NoResetNext finished ∧ step finished = .next finished) :=
  ⟨⟨rfl, _, rfl⟩, rfl, finished_legal, by decide, fun _ => by simp [finished, small], rfl⟩

theorem witness_DoneSignalRisesAndFalls :
    (NoProbe lastEntry ∧ step lastEntry = .next lastDone ∧ doneSignal lastEntry = false ∧ doneSignal lastDone = true) ∧
    (StatusLegal (small false true 0 [.ctrl 1]) ∧ doneSignal (small false true 0 [.ctrl 1]) = true ∧
      ∃ t, step (small false true 0 [.ctrl 1]) = .next t ∧ doneSignal t = false) :=
  ⟨⟨rfl, lastEntry_step, rfl, rfl⟩, by unfold StatusLegal; decide, rfl, _, rfl, rfl⟩

theorem witness_ResetAbandonsTheRun : ∃ (s : State) (c : ResetContent), s.busy = true ∧ s.inputs = [.reset c] :=
  ⟨small true false 70 [.reset ⟨zeroBlock, zeroBlock, zeroBlock, zeroBlock⟩], _, rfl, rfl⟩

/-! #### Runs -/

theorem witness_CompressOfEqualBlocksIsZero : writeWord zeroBlock 0 1 ≠ zeroBlock := fun h => by
  have := congrArg (fun p => readWord p 0) h
  simp at this

theorem witness_SubPassOrderIsFree : columnQuads.reverse.Perm columnQuads ∧ 7 < 8 := ⟨List.reverse_perm _, by decide⟩
theorem witness_GroupOrderIsFree : (List.range 8).reverse.Perm (List.range 8) := List.reverse_perm _
theorem witness_WindowOrderIsFree : windowW3.reverse.Perm windowW3 := List.reverse_perm _

theorem witness_XoroutStepComputesCompress : RunInvariant lastEntry ∧ lastEntry.busy = true ∧ lastEntry.upc = 134 ∧
    lastEntry.inputs = [] :=
  ⟨lastEntry_invariant, rfl, rfl, rfl⟩

theorem witness_RunTakes135EngineSteps : (busyAt 0).busy = true ∧ (busyAt 0).done = false ∧ (busyAt 0).upc = 0 ∧
    NoProbe (busyAt 0) ∧ (busyAt 0).inputs = [] :=
  ⟨rfl, rfl, rfl, rfl, rfl⟩

theorem witness_ResultDependsOnInputsAtStartOnly : RunInvariant lastEntry ∧ lastEntry.busy = true ∧
    (∀ content, Input.reset content ∉ lastEntry.inputs) ∧ (∀ j < 1, ∀ u, RunsTo j lastEntry u → u.busy = true) ∧
    RunsTo 1 lastEntry lastDone ∧ lastDone.busy = false := by
  refine ⟨lastEntry_invariant, rfl, fun _ => by simp [lastEntry, busyAt, small], ?_, runsTo_one lastEntry_step, rfl⟩
  intro j hj u hu
  obtain rfl : j = 0 := by omega
  rw [runsTo_zero hu]
  rfl

/-- The writes in the reverse order. -/
theorem witness_CallProtocolComputesCompress : ∃ (s : State) (writes : List Input), s.busy = false ∧ NoProbe s ∧
    writes.Perm (inputWrites (writeWord zeroBlock 0 1) zeroBlock) ∧ s.inputs = writes ++ [startWrite] :=
  ⟨small false true 0 ((inputWrites (writeWord zeroBlock 0 1) zeroBlock).reverse ++ [startWrite]), _, rfl, rfl,
    List.reverse_perm _, rfl⟩

/-- The assembler's model choices of log entry 18: an upper-case X word and a leading zero are read as X1. -/
theorem test_assemble_operand_spelling :
    assembleLine ['m', 'i', 'x', ' ', 'X', '1', ',', 'x', '0', '0', '6', ',', 'x', '1', '1', ',', 'x', '1', '2'] =
      some [.u 0x2021858C] := by decide +kernel

end Sys2Proof.Tests
end

section
/-! PROOFS of the family 10_state.md: the reset state, the invariants of a run, who may change A, B, X, Z and done, and
what a run leaves in Z. -/

namespace Sys2Proof.Machine

/-! ### A unit of the host's (R140) -/

theorem HostEffect.x_eq {s t : State} {e : Encoded} (h : HostEffect s e t) : t.x = s.x := by
  cases h <;> rfl

theorem HostEffect.z_eq {s t : State} {e : Encoded} (h : HostEffect s e t) : t.z = s.z := by
  cases h <;> rfl

theorem HostEffect.inputs_eq {s t : State} {e : Encoded} (h : HostEffect s e t) : t.inputs = s.inputs := by
  cases h <;> rfl

theorem HostEffect.fetchProbe_eq {s t : State} {e : Encoded} (h : HostEffect s e t) :
    t.fetchProbe = s.fetchProbe := by
  cases h <;> rfl

/-- During a run the host's units change only the response (R143, R145, R150). -/
theorem HostEffect.eq_respond_of_busy {s t : State} {e : Encoded} (h : HostEffect s e t) (hb : s.busy = true) :
    ∃ r, t = respond s r := by
  cases h with
  | answered r => exact ⟨r, rfl⟩
  | wroteA _ _ idle => simp [hb] at idle
  | wroteB _ _ idle => simp [hb] at idle
  | started idle _ => simp [hb] at idle

/-- The host's units leave the status bits and upc, but for a START while no run is in progress (R150). -/
theorem HostEffect.status_cases {s t : State} {e : Encoded} (h : HostEffect s e t) :
    (t.busy = s.busy ∧ t.done = s.done ∧ t.upc = s.upc) ∨
    ((e = .c 1 ∨ e = .t ⟨.write 1, ctrlOffset, .eight⟩) ∧ t.busy = true ∧ t.done = false ∧ t.upc = 0) := by
  cases h with
  | answered r => exact .inl ⟨rfl, rfl, rfl⟩
  | wroteA _ _ _ => exact .inl ⟨rfl, rfl, rfl⟩
  | wroteB _ _ _ => exact .inl ⟨rfl, rfl, rfl⟩
  | started _ isStart => exact .inr ⟨isStart, rfl, rfl, rfl⟩

/-- The event that brings a unit START is one of the two forms of its write (R63, R150). -/
theorem head?_of_hostUnit_start {s : State} {e : Encoded} (hu : hostUnit s e)
    (he : e = .c 1 ∨ e = .t ⟨.write 1, ctrlOffset, .eight⟩) :
    s.inputs.head? = some (.ctrl 1) ∨ s.inputs.head? = some (.host ⟨.write 1, 0xC00, .eight⟩) := by
  obtain ⟨u, rfl, hi⟩ | ⟨v, rfl, hi⟩ := hu
  · obtain rfl : u = ⟨.write 1, ctrlOffset, .eight⟩ := by simpa using he
    exact .inr hi
  · obtain rfl : v = 1 := by simpa using he
    exact .inl hi

/-- The instructions of the host's formats T and C: all but the micro-operations. -/
def isHostInstr : Instr → Bool
  | .xorin | .mix _ _ _ _ | .bar | .xorout | .reservedU _ => false
  | _ => true

theorem isHostInstr_decode {e : Encoded} (he : ∀ w, e ≠ .u w) : isHostInstr (decode e) = true := by
  cases e with
  | u w => exact absurd rfl (he w)
  | c v =>
    simp only [decode, decodeCommand]
    split_ifs <;> rfl
  | t t =>
    simp only [decode, decodeTransaction]
    split_ifs
    · rfl
    · rfl
    · cases h : t.kind <;> simp only [dispatchTransaction] <;> split_ifs <;> rfl

/-- No meaning of a host's instruction reads or writes X (R21): run on a state with another X, it answers the same state
with that X. -/
theorem exec_setX_of_isHostInstr {i : Instr} (hi : isHostInstr i = true) {s t : State} (y : Block)
    (h : exec i s = .next t) : exec i (setX s y) = .next (setX t y) := by
  cases i with
  | xorin | mix | bar | xorout | reservedU => cases hi
  | rdA | rdB | rdCtrl | rdStatus | wrZ | wrStatus | reservedT | badAccessT | ctrlNop | ctrlReserved =>
    cases h
    rfl
  | wrA | wrB | rdZ | start =>
    have hbusy : (setX s y).busy = s.busy := rfl
    simp only [exec, execWrA, execWrB, execRdZ, execStart] at h ⊢
    split_ifs at h with hb
    · rw [if_pos (hbusy.trans hb)]
      cases h
      rfl
    · rw [if_neg (hbusy ▸ hb)]
      cases h
      rfl
  | wrCtrl v =>
    have hbusy : (setX s y).busy = s.busy := rfl
    simp only [exec, execWrCtrl] at h ⊢
    split_ifs at h with hzero hb hreserved
    · rw [if_pos hzero]
      cases h
      rfl
    · rw [if_neg hzero, if_pos (hbusy.trans hb)]
      cases h
      rfl
    · rw [if_neg hzero, if_neg (hbusy ▸ hb), if_pos hreserved]
      cases h
      rfl
    · rw [if_neg hzero, if_neg (hbusy ▸ hb), if_neg hreserved]
      cases h
      rfl

/-! ### The engine's turn (R128) -/

/-- The engine's turn changes nothing while idle, and during a run it is exec of the fetched word. -/
theorem engineTurn_eq_next {s t : State} (h : engineTurn s = .next t) :
    (s.busy = false ∧ t = s) ∨
    (s.busy = true ∧ ∃ w, fetchMicroWord s = some w ∧ exec (decode (.u w)) (clearProbe s) = .next t) := by
  cases hb : s.busy with
  | false =>
    rw [engineTurn_idle hb] at h
    cases h
    exact .inl ⟨rfl, rfl⟩
  | true =>
    rw [engineTurn, if_pos hb] at h
    split at h
    · exact .inr ⟨rfl, _, ‹_›, h⟩
    · cases h

theorem sameHostSide_advance (s : State) : SameHostSide s (advance s) := ⟨rfl, rfl, rfl, rfl, rfl, rfl, rfl⟩

theorem sameHostSide_advance_setX (s : State) (blk : Block) : SameHostSide s (advance (setX s blk)) :=
  ⟨rfl, rfl, rfl, rfl, rfl, rfl, rfl⟩

theorem sameHostSide_finishRun_setZ (s : State) (blk : Block) : SameHostSide s (finishRun (setZ s blk)) :=
  ⟨rfl, rfl, rfl, rfl, rfl, rfl, rfl⟩

/-- No micro-operation word touches the host's side of the state. -/
theorem exec_micro_sameHostSide {w : MicroWord} {s t : State} (h : exec (decode (.u w)) s = .next t) :
    SameHostSide s t := by
  simp only [decode, decodeMicro] at h
  split_ifs at h with _ _ _ hmix
  · cases h
    exact sameHostSide_advance_setX s _
  · cases h
    exact sameHostSide_advance s
  · cases h
    exact sameHostSide_finishRun_setZ s _
  · rw [exec, execMix, if_pos hmix.2] at h
    cases h
    exact sameHostSide_advance_setX s _
  · cases h

/-- The engine leaves A, B, their written bits and the events to come (R35). -/
theorem engineTurn_keeps_inputs {s t : State} (h : engineTurn s = .next t) :
    (t.a = s.a ∧ t.b = s.b ∧ t.aWritten = s.aWritten ∧ t.bWritten = s.bWritten) ∧ t.inputs = s.inputs := by
  obtain ⟨-, rfl⟩ | ⟨-, w, -, hw⟩ := engineTurn_eq_next h
  · exact ⟨⟨rfl, rfl, rfl, rfl⟩, rfl⟩
  · obtain ⟨ha, hb, haw, hbw, -, hi, -⟩ := exec_micro_sameHostSide hw
    exact ⟨⟨ha, hb, haw, hbw⟩, hi⟩

/-- During a run an engine's turn that completes found a ROM entry, so upc was at most 134. -/
theorem upc_le_of_engineTurn {s t : State} (hp : NoProbe s) (h : engineTurn s = .next t) (hb : s.busy = true) :
    s.upc.toNat ≤ 134 := by
  obtain ⟨hidle, -⟩ | ⟨-, w, hw, -⟩ := engineTurn_eq_next h
  · simp [hb] at hidle
  · have hrom : scheduleRom[s.upc.toNat]? = some w := by
      rw [NoProbe] at hp
      simpa [fetchMicroWord, hp] using hw
    have hlt := (List.getElem?_eq_some_iff.1 hrom).1
    rw [rom_length] at hlt
    omega

/-! ### The step -/

/-- A step takes the first event and no other. -/
theorem step_inputs {s t : State} (h : step s = .next t) : t.inputs = s.inputs.tail := by
  obtain ⟨c, -, rfl⟩ | ⟨e, -, he⟩ | ⟨-, he⟩ := step_next_cases h
  · rfl
  · exact he.inputs_eq
  · exact (engineTurn_keeps_inputs he).2

/-- R35: during a run only a reset changes A or B. -/
theorem step_keeps_inputs {s t : State} (hb : s.busy = true) (hr : NoResetNext s) (h : step s = .next t) :
    t.a = s.a ∧ t.b = s.b ∧ t.aWritten = s.aWritten ∧ t.bWritten = s.bWritten := by
  obtain ⟨c, hc, -⟩ | ⟨e, -, he⟩ | ⟨-, he⟩ := step_next_cases h
  · exact absurd hc (hr c)
  · obtain ⟨r, rfl⟩ := he.eq_respond_of_busy hb
    exact ⟨rfl, rfl, rfl, rfl⟩
  · exact (engineTurn_keeps_inputs he).1

/-! ### The invariants of R28 -/

theorem statusLegal_of_idle {s : State} (hb : s.busy = false) (hu : s.upc = 0) : StatusLegal s := by
  simp [StatusLegal, hb, hu]

theorem statusLegal_of_running {s : State} (hb : s.busy = true) (hd : s.done = false) (hu : s.upc.toNat ≤ 134) :
    StatusLegal s := by
  simp [StatusLegal, hb, hd, hu]

theorem StatusLegal.done_of_busy {s : State} (h : StatusLegal s) (hb : s.busy = true) : s.done = false := by
  simpa [hb] using h.1

theorem StatusLegal.upc_le {s : State} (h : StatusLegal s) (hb : s.busy = true) : s.upc.toNat ≤ 134 := h.2.2 hb

theorem StatusLegal.busy_of_done {s : State} (h : StatusLegal s) (hd : s.done = true) : s.busy = false := by
  simpa [hd] using h.1

theorem HostEffect.keeps_statusLegal {s t : State} {e : Encoded} (h : HostEffect s e t) (hl : StatusLegal s) :
    StatusLegal t := by
  obtain ⟨hb, hd, hu⟩ | ⟨-, hb, hd, hu⟩ := h.status_cases
  · simpa only [StatusLegal, hb, hd, hu] using hl
  · exact statusLegal_of_running hb hd (by simp [hu])

/-- An entry before the last keeps the invariants: the run goes on with upc one higher. -/
theorem StatusLegal.advance_setX {s : State} (h : StatusLegal s) (hb : s.busy = true) (hu : s.upc.toNat < 134)
    (blk : Block) : StatusLegal (advance (setX s blk)) := by
  have hsucc : (s.upc + 1).toNat ≤ 134 := by
    rw [upc_succ_toNat (by omega)]
    omega
  exact statusLegal_of_running hb (h.done_of_busy hb) hsucc

/-- The engine's turn keeps the invariants: upc advances by 1 below 134, and XOROUT at 134 ends the run. -/
theorem engineTurn_keeps_statusLegal {s t : State} (hl : StatusLegal s) (hp : NoProbe s) (h : engineTurn s = .next t) :
    StatusLegal t := by
  obtain ⟨-, rfl⟩ | ⟨hb, hu, rfl⟩ | ⟨hb, -, hu, w, -, rfl⟩ | ⟨-, -, rfl⟩ :=
    engineTurn_next_cases hl.upc_le hp h
  · exact hl
  · exact hl.advance_setX hb (by omega) _
  · exact hl.advance_setX hb hu _
  · exact statusLegal_of_idle rfl rfl

theorem engineTurn_keeps_noProbe {s t : State} (hp : NoProbe s) (h : engineTurn s = .next t) : NoProbe t := by
  obtain ⟨-, rfl⟩ | ⟨-, w, -, hw⟩ := engineTurn_eq_next h
  · exact hp
  · obtain ⟨-, -, -, -, -, -, hprobe⟩ := exec_micro_sameHostSide hw
    exact hprobe

theorem step_keeps_noProbe {s t : State} (hp : NoProbe s) (h : step s = .next t) : NoProbe t := by
  obtain ⟨c, -, rfl⟩ | ⟨e, -, he⟩ | ⟨-, he⟩ := step_next_cases h
  · exact applyReset_fetchProbe c _
  · exact he.fetchProbe_eq.trans hp
  · exact engineTurn_keeps_noProbe (s := popInput s) hp he

theorem step_keeps_statusLegal {s t : State} (hl : StatusLegal s) (hp : NoProbe s) (h : step s = .next t) :
    StatusLegal t := by
  obtain ⟨c, -, rfl⟩ | ⟨e, -, he⟩ | ⟨-, he⟩ := step_next_cases h
  · exact statusLegal_of_idle rfl rfl
  · exact he.keeps_statusLegal (s := popInput s) hl
  · exact engineTurn_keeps_statusLegal (s := popInput s) hl hp he

/-! ### X along the schedule -/

theorem xOnSchedule_of_idle {s : State} (h : s.busy = false) : XOnSchedule s := by
  simp [XOnSchedule, h]

theorem HostEffect.keeps_xOnSchedule {s t : State} {e : Encoded} (h : HostEffect s e t) (hx : XOnSchedule s) :
    XOnSchedule t := by
  cases h with
  | answered r => exact hx
  | wroteA _ _ idle => exact xOnSchedule_of_idle idle
  | wroteB _ _ idle => exact xOnSchedule_of_idle idle
  | started _ _ => simp [XOnSchedule]

/-- XORIN puts X on schedule, every later entry takes it one entry on, and XOROUT ends the run. -/
theorem engineTurn_keeps_xOnSchedule {s t : State} (hi : RunInvariant s) (h : engineTurn s = .next t) :
    XOnSchedule t := by
  obtain ⟨hl, hp, hx⟩ := hi
  obtain ⟨-, rfl⟩ | ⟨-, hu, rfl⟩ | ⟨hb, hpos, hu, w, hw, rfl⟩ | ⟨-, -, rfl⟩ :=
    engineTurn_next_cases hl.upc_le hp h
  · exact hx
  · intro _ _
    simp only [advance_x, setX_x, advance_a, setX_a, advance_b, setX_b, advance_upc, setX_upc]
    rw [upc_succ_toNat (by omega), hu, scheduledX_one]
  · intro _ _
    simp only [advance_x, setX_x, advance_a, setX_a, advance_b, setX_b, advance_upc, setX_upc]
    rw [upc_succ_toNat (by omega), scheduledX_succ _ _ hpos hw, hx hb hpos]
  · exact xOnSchedule_of_idle rfl

theorem step_keeps_xOnSchedule {s t : State} (hi : RunInvariant s) (h : step s = .next t) : XOnSchedule t := by
  have ⟨_, _, hx⟩ := hi
  obtain ⟨c, -, rfl⟩ | ⟨e, -, he⟩ | ⟨-, he⟩ := step_next_cases h
  · exact xOnSchedule_of_idle rfl
  · exact he.keeps_xOnSchedule (s := popInput s) hx
  · exact engineTurn_keeps_xOnSchedule (s := popInput s) hi he

theorem step_keeps_runInvariant {s t : State} (hi : RunInvariant s) (h : step s = .next t) : RunInvariant t := by
  have ⟨hl, hp, _⟩ := hi
  exact ⟨step_keeps_statusLegal hl hp h, step_keeps_noProbe hp h, step_keeps_xOnSchedule hi h⟩

/-! ### XOROUT, the end of a run (R122) -/

/-- The state XOROUT leaves: Z assembled, the run ended. -/
def xoroutState (s : State) : State := finishRun (setZ s (xorBlocks (xorBlocks s.x s.a) s.b))

theorem exec_xorout (s : State) : exec .xorout s = .next (xoroutState s) := rfl

@[simp] theorem xoroutState_a (s : State) : (xoroutState s).a = s.a := by simp [xoroutState]

@[simp] theorem xoroutState_b (s : State) : (xoroutState s).b = s.b := by simp [xoroutState]

@[simp] theorem xoroutState_z (s : State) : (xoroutState s).z = xorBlocks (xorBlocks s.x s.a) s.b := by
  simp [xoroutState]

@[simp] theorem xoroutState_busy (s : State) : (xoroutState s).busy = false := by simp [xoroutState]

@[simp] theorem xoroutState_done (s : State) : (xoroutState s).done = true := by simp [xoroutState]

@[simp] theorem xoroutState_upc (s : State) : (xoroutState s).upc = 0 := by simp [xoroutState]

/-- The engine's turn, by its effect on Z and the status bits: it leaves Z and both bits, or it is XOROUT at upc 134. -/
theorem engineTurn_keeps_or_xorout {s t : State} (hp : NoProbe s) (h : engineTurn s = .next t) :
    (t.z = s.z ∧ t.busy = s.busy ∧ t.done = s.done) ∨ (s.busy = true ∧ s.upc = 134 ∧ t = xoroutState s) := by
  obtain ⟨-, rfl⟩ | ⟨-, -, rfl⟩ | ⟨-, -, -, w, -, rfl⟩ | ⟨hb, hu, rfl⟩ :=
    engineTurn_next_cases (upc_le_of_engineTurn hp h) hp h
  · exact .inl ⟨rfl, rfl, rfl⟩
  · simp
  · simp
  · exact .inr ⟨hb, BitVec.eq_of_toNat_eq hu, rfl⟩

/-- A step that ends a run without a reset is XOROUT. -/
theorem step_ends_run {s t : State} (hp : NoProbe s) (hr : NoResetNext s) (hb : s.busy = true) (h : step s = .next t)
    (ht : t.busy = false) : s.upc = 134 ∧ t = xoroutState (popInput s) := by
  obtain ⟨c, hc, -⟩ | ⟨e, -, he⟩ | ⟨-, he⟩ := step_next_cases h
  · exact absurd hc (hr c)
  · obtain ⟨r, rfl⟩ := he.eq_respond_of_busy hb
    simp [hb] at ht
  · obtain ⟨-, hkeep, -⟩ | ⟨-, hu, hx⟩ := engineTurn_keeps_or_xorout (s := popInput s) hp he
    · simp [hkeep, hb] at ht
    · exact ⟨hu, hx⟩

/-! ### The schedule computes Compress (R131) -/

/-- R131 item 3 for the row groups: W1 then W2 is step 2, since a group's diagonal quads move past later groups. -/
theorem row_windows_eq_permAll (x : Block) :
    windowW2.foldl microEffect (windowW1.foldl microEffect x) = permAll rowIndex (List.range 8) x := by
  rw [windowW1_eq, windowW2_eq, foldl_microEffect_mixWordsOf _ (quadsApart_proper windowQuads_row_column_apart),
    foldl_microEffect_mixWordsOf _ (quadsApart_proper windowQuads_row_diagonal_apart), ← mixAll_append,
    permAll_eq_mixAll]
  exact mixAll_movesInto (by decide +kernel) x

/-- R131 item 3 for the column groups: W3 then W4 is step 3. -/
theorem col_windows_eq_permAll (x : Block) :
    windowW4.foldl microEffect (windowW3.foldl microEffect x) = permAll colIndex (List.range 8) x := by
  rw [windowW3_eq, windowW4_eq, foldl_microEffect_mixWordsOf _ (quadsApart_proper windowQuads_col_column_apart),
    foldl_microEffect_mixWordsOf _ (quadsApart_proper windowQuads_col_diagonal_apart), ← mixAll_append,
    permAll_eq_mixAll]
  exact mixAll_movesInto (by decide +kernel) x

theorem rom_between_xorin_and_xorout : (scheduleRom.take 134).drop 1 =
    (0x30000000 :: windowW1) ++ (0x30000000 :: windowW2) ++ (0x30000000 :: windowW3) ++ (0x30000000 :: windowW4)
      ++ [0x30000000] := by decide +kernel

/-- What XOROUT finds in X: steps 2 and 3 of A ^ B. -/
theorem scheduledX_134 (a b : Block) : scheduledX a b 134 = permuteBlock (xorBlocks a b) := by
  rw [scheduledX, rom_between_xorin_and_xorout]
  simp only [List.foldl_append, List.foldl_cons, List.foldl_nil, microEffect_bar]
  rw [row_windows_eq_permAll, col_windows_eq_permAll, permuteBlock]

/-- In a run at upc 134, what XOROUT assembles is Compress(A, B). -/
theorem xorBlocks_x_eq_compress {s : State} (hx : XOnSchedule s) (hb : s.busy = true) (hu : s.upc = 134) :
    xorBlocks (xorBlocks s.x s.a) s.b = compress s.a s.b := by
  have hu' : s.upc.toNat = 134 := by rw [hu]; rfl
  rw [hx hb (by omega), hu', scheduledX_134, compress]

/-! ### Runs -/

/-- A run that reaches a state took a first step. -/
theorem exists_step_of_runsTo_succ {k : Nat} {s t : State} (h : RunsTo (k + 1) s t) :
    ∃ u, step s = .next u ∧ RunsTo k u t := by
  cases hs : step s with
  | next u => exact ⟨u, rfl, (runsTo_succ hs).1 h⟩
  | fault r => simp [RunsTo, Host.Core.run, core, hs] at h
  | refused r => simp [RunsTo, Host.Core.run, core, hs] at h

theorem noResetNext_of_not_mem {s : State} (h : ∀ c, Input.reset c ∉ s.inputs) : NoResetNext s :=
  fun c hc => h c (List.mem_of_mem_head? hc)

/-- The first step to an idle state ends the run with Compress(A, B) in Z. -/
theorem compress_of_step_ends_run {s t : State} (hi : RunInvariant s) (hb : s.busy = true) (hr : NoResetNext s)
    (h : step s = .next t) (ht : t.busy = false) :
    t.z = compress s.a s.b ∧ t.a = s.a ∧ t.b = s.b ∧ t.done = true := by
  obtain ⟨-, hp, hx⟩ := hi
  obtain ⟨hu, rfl⟩ := step_ends_run hp hr hb h ht
  simpa using xorBlocks_x_eq_compress hx hb hu

/-- R36, by induction on the steps: while the run lasts A and B stay, and its last step is XOROUT. -/
theorem run_computes_compress {k : Nat} {s t : State} (hi : RunInvariant s) (hb : s.busy = true)
    (hr : ∀ c, Input.reset c ∉ s.inputs) (hbusy : ∀ j < k, ∀ u, RunsTo j s u → u.busy = true)
    (h : RunsTo k s t) (ht : t.busy = false) : t.z = compress s.a s.b ∧ t.a = s.a ∧ t.b = s.b ∧ t.done = true := by
  induction k generalizing s with
  | zero =>
    rw [runsTo_zero h, hb] at ht
    cases ht
  | succ k ih =>
    obtain ⟨u, hs, hk⟩ := exists_step_of_runsTo_succ h
    have hrn := noResetNext_of_not_mem hr
    cases k with
    | zero =>
      rw [runsTo_zero hk] at ht ⊢
      exact compress_of_step_ends_run hi hb hrn hs ht
    | succ k =>
      obtain ⟨ha, hb', -, -⟩ := step_keeps_inputs hb hrn hs
      have hub : u.busy = true := hbusy 1 (by omega) u (runsTo_one hs)
      have hur : ∀ c, Input.reset c ∉ u.inputs := fun c hc =>
        hr c (List.mem_of_mem_tail (step_inputs hs ▸ hc))
      have hubusy : ∀ j < k + 1, ∀ v, RunsTo j u v → v.busy = true := fun j hj v hv =>
        hbusy (j + 1) (by omega) v ((runsTo_succ hs).2 hv)
      rw [← ha, ← hb']
      exact ih (step_keeps_runInvariant hi hs) hub hur hubusy hk

/-! ### The state after power-up (R31) -/

theorem readWord_powerUpContent (i : Index) :
    readWord powerUpContent.a i = Config.resetContent .a i ∧
      readWord powerUpContent.b i = Config.resetContent .b i ∧
      readWord powerUpContent.x i = Config.resetContent .x i ∧
      readWord powerUpContent.z i = Config.resetContent .z i :=
  ⟨readWord_tabulate (Config.resetContent .a) i, readWord_tabulate (Config.resetContent .b) i,
    readWord_tabulate (Config.resetContent .x) i, readWord_tabulate (Config.resetContent .z) i⟩

theorem statusWord_of_idle {s : State} (hb : s.busy = false) (hd : s.done = false) : statusWord s = 0 := by
  rw [statusWord, hb, hd]
  decide

theorem statusWord_getLsbD_one (s : State) : (statusWord s).getLsbD 1 = s.done := by
  rw [statusWord]
  cases s.done <;> cases s.busy <;> decide

end Sys2Proof.Machine

/-! ### The obligations -/

namespace Sys2Proof.Proofs

open Sys2Proof.Machine

/-- Settles O36, by the cases of the step: reset, a unit of the host's, the engine's turn. -/
theorem stepKeepsStatusLegal : Obligations.StepKeepsStatusLegal := by
  intro s t hl hp h
  exact ⟨step_keeps_statusLegal hl hp h, step_keeps_noProbe hp h⟩

/-- Settles O39: the host's writes are refused during a run, and no micro-operation writes A or B. -/
theorem inputsAreStableDuringARun : Obligations.InputsAreStableDuringARun := by
  intro s t hb hr h
  exact step_keeps_inputs hb hr h

/-- Settles O40: of the host's units and the engine's entries only XOROUT writes Z. -/
theorem onlyXoroutWritesZ : Obligations.OnlyXoroutWritesZ := by
  intro s t hp hr h hz
  obtain ⟨c, hc, -⟩ | ⟨e, -, he⟩ | ⟨-, he⟩ := step_next_cases h
  · exact absurd hc (hr c)
  · exact absurd he.z_eq hz
  · obtain ⟨hkeep, -⟩ | ⟨hb, hu, rfl⟩ := engineTurn_keeps_or_xorout (s := popInput s) hp he
    · exact absurd hkeep hz
    · exact ⟨hb, hu, by simp⟩

/-- Settles O41: no host unit writes X, and none reads it. -/
theorem xIsHiddenFromTheHost : Obligations.XIsHiddenFromTheHost :=
  ⟨fun _ _ _ he h => (host_effect he h).x_eq,
    fun _ _ _ y he h => ⟨_, exec_setX_of_isHostInstr (isHostInstr_decode he) y h, rfl, rfl⟩⟩

/-- Settles O45: done rises only at XOROUT, and falls only at an accepted START or a reset. -/
theorem doneSignalRisesAndFalls : Obligations.DoneSignalRisesAndFalls := by
  refine ⟨fun s => (statusWord_getLsbD_one s).symm, ?rises, ?falls⟩
  case rises =>
    intro s t hp h (hs : s.done = false) (ht : t.done = true)
    obtain ⟨c, -, rfl⟩ | ⟨e, -, he⟩ | ⟨hnext, he⟩ := step_next_cases h
    · simp at ht
    · obtain ⟨-, hd, -⟩ | ⟨-, -, hd, -⟩ := he.status_cases <;> simp [hd, hs] at ht
    · obtain ⟨-, -, hd⟩ | ⟨hb, hu, rfl⟩ := engineTurn_keeps_or_xorout (s := popInput s) hp he
      · simp [hd, hs] at ht
      · have hu' : s.upc = 134 := hu
        exact ⟨hnext, hb, hu', by rw [hu']; rfl, exec_xorout _⟩
  case falls =>
    intro s t hl h (hs : s.done = true) (ht : t.done = false)
    obtain ⟨c, hc, -⟩ | ⟨e, hunit, he⟩ | ⟨-, he⟩ := step_next_cases h
    · exact .inr (.inr ⟨c, hc⟩)
    · obtain ⟨-, hd, -⟩ | ⟨hstart, -⟩ := he.status_cases
      · simp [hd, hs] at ht
      · exact (head?_of_hostUnit_start hunit hstart).imp_right .inl
    · rw [engineTurn_idle (s := popInput s) (hl.busy_of_done hs)] at he
      cases he
      simp [hs] at ht

/-- Settles O57, by induction on the steps of the run. -/
theorem resultDependsOnInputsAtStartOnly : Obligations.ResultDependsOnInputsAtStartOnly := by
  intro k s t hi hb hr hbusy h ht
  exact run_computes_compress hi hb hr hbusy h ht

/-- Settles O37: the state after reset is idle at upc 0. -/
theorem resetMeetsTheInvariant : Obligations.ResetMeetsTheInvariant :=
  ⟨statusLegal_of_idle rfl rfl, rfl, xOnSchedule_of_idle rfl⟩

/-- Settles O47, from the words of the power-up draw and the status word of an idle engine. -/
theorem powerUpState : Obligations.PowerUpState := by
  have hstatus : statusWord State.reset = 0 := statusWord_of_idle rfl rfl
  refine ⟨rfl, rfl, rfl, rfl, hstatus, ⟨_, rfl, rfl⟩, ⟨_, rfl, ?_⟩, readWord_powerUpContent⟩
  rw [respond_response, hstatus, okayRead]

end Sys2Proof.Proofs
end

section
/-! PROOFS of the family 20_memory.md: the bytes of a block and of the window, the effects of transactions done twice,
and how long a result stays. -/

namespace Sys2Proof.Machine

/-! ### The bytes of a word (R40) -/

/-- Two fields put side by side, as a number. -/
theorem append_toNat {m n : Nat} (x : BitVec m) (y : BitVec n) : (x ++ y).toNat = x.toNat * 2 ^ n + y.toNat := by
  rw [BitVec.toNat_append, ← Nat.shiftLeft_add_eq_or_of_lt y.isLt, Nat.shiftLeft_eq]

theorem wordOfBytes_toNat (m : BitVec 3 → Byte) :
    (wordOfBytes m).toNat = ((List.range 8).map fun j => (m (BitVec.ofNat 3 j)).toNat * 2 ^ (8 * j)).sum := by
  simp only [List.sum_range_succ, List.range_zero, List.map_nil, List.sum_nil]
  rw [wordOfBytes]
  simp only [append_toNat, BitVec.ofNat_eq_ofNat]
  omega

/-- The bytes of the little-endian sum are its terms: each is below 2^8, so no byte carries into the next. -/
theorem extractLsb'_wordOfBytes (m : BitVec 3 → Byte) {j : Nat} (hj : j < 8) :
    (wordOfBytes m).extractLsb' (8 * j) 8 = m (BitVec.ofNat 3 j) := by
  apply BitVec.eq_of_toNat_eq
  rw [field_toNat]
  simp only [wordOfBytes, append_toNat, BitVec.ofNat_eq_ofNat]
  interval_cases j <;> omega

/-! ### The bytes of a block (R40) -/

/-- A byte's number in a block is its word's index followed by its number in the word. -/
theorem index_append_byte (i : Index) {j : Nat} (hj : j < 8) :
    (i ++ BitVec.ofNat 3 j : BitVec 10) = BitVec.ofNat 10 (8 * i.toNat + j) := by
  have hi := i.isLt
  apply BitVec.eq_of_toNat_eq
  rw [append_toNat, BitVec.toNat_ofNat, BitVec.toNat_ofNat]
  omega

theorem readWord_blockOfBytes (m : BitVec 10 → Byte) (i : Index) :
    readWord (blockOfBytes m) i = wordOfBytes fun j => m (i ++ j) := by
  rw [blockOfBytes, readWord_tabulate]

theorem extractLsb'_readWord_blockOfBytes (m : BitVec 10 → Byte) (i : Index) {j : Nat} (hj : j < 8) :
    (readWord (blockOfBytes m) i).extractLsb' (8 * j) 8 = m (BitVec.ofNat 10 (8 * i.toNat + j)) := by
  rw [readWord_blockOfBytes, extractLsb'_wordOfBytes _ hj, index_append_byte i hj]

theorem blockByte_eq_extractLsb' (p : Block) (i : Index) {j : Nat} (hj : j < 8) :
    blockByte p (BitVec.ofNat 10 (8 * i.toNat + j)) = (readWord p i).extractLsb' (8 * j) 8 := by
  have hi := i.isLt
  have hword : (BitVec.ofNat 10 (8 * i.toNat + j)).extractLsb' 3 7 = i := by
    apply BitVec.eq_of_toNat_eq
    rw [field_toNat, BitVec.toNat_ofNat]
    omega
  have hbyte : ((BitVec.ofNat 10 (8 * i.toNat + j)).extractLsb' 0 3).toNat = j := by
    rw [field_toNat, BitVec.toNat_ofNat]
    omega
  rw [blockByte, hword, wordByte, hbyte]

/-! ### The bytes of the window (R42, R44) -/

/-- The byte of a block behind an offset: its low ten bits. -/
theorem extractLsb'_offset {base k : Nat} (hbase : base % 1024 = 0) :
    (BitVec.ofNat 12 (base + k)).extractLsb' 0 10 = BitVec.ofNat 10 k := by
  apply BitVec.eq_of_toNat_eq
  rw [field_toNat, BitVec.toNat_ofNat, BitVec.toNat_ofNat]
  omega

theorem windowByte_regionA (s : State) {k : Nat} (hk : k < 1024) :
    windowByte s (BitVec.ofNat 12 k) = some (blockByte s.a (BitVec.ofNat 10 k)) := by
  have hoff : (BitVec.ofNat 12 k).toNat = k := Nat.mod_eq_of_lt (by omega)
  have hbyte := extractLsb'_offset (base := 0) (k := k) rfl
  rw [Nat.zero_add] at hbyte
  simp only [windowByte]
  rw [hoff, hbyte, if_pos hk]

theorem windowByte_regionB (s : State) {k : Nat} (hk : k < 1024) :
    windowByte s (BitVec.ofNat 12 (0x400 + k)) = some (blockByte s.b (BitVec.ofNat 10 k)) := by
  have hoff : (BitVec.ofNat 12 (0x400 + k)).toNat = 0x400 + k := Nat.mod_eq_of_lt (by omega)
  simp only [windowByte]
  rw [hoff, extractLsb'_offset rfl, if_neg (by omega), if_pos (by omega)]

theorem windowByte_regionZ (s : State) {k : Nat} (hk : k < 1024) :
    windowByte s (BitVec.ofNat 12 (0x800 + k)) = some (blockByte s.z (BitVec.ofNat 10 k)) := by
  have hoff : (BitVec.ofNat 12 (0x800 + k)).toNat = 0x800 + k := Nat.mod_eq_of_lt (by omega)
  simp only [windowByte]
  rw [hoff, extractLsb'_offset rfl, if_neg (by omega), if_neg (by omega), if_pos (by omega)]

/-! ### Host addresses (R44) -/

theorem windowOffset_eq_some_iff {addr : Nat} {off : Offset} :
    windowOffset addr = some off ↔ addr = Config.base + off.toNat := by
  have hbytes : Config.windowBytes = 4096 := rfl
  have hoff := off.isLt
  rw [windowOffset, Option.ite_none_right_eq_some, Option.some_inj, ← BitVec.toNat_inj, BitVec.toNat_ofNat]
  omega

theorem windowOffset_eq_none_iff {addr : Nat} :
    windowOffset addr = none ↔ addr < Config.base ∨ Config.base + 4096 ≤ addr := by
  have hbytes : Config.windowBytes = 4096 := rfl
  rw [windowOffset, ite_eq_right_iff, hbytes]
  simp only [reduceCtorEq, imp_false]
  omega

/-! ### The host's instructions done twice (R49) -/

/-- No meaning of a host's instruction reads the response of the transaction before it. -/
theorem exec_respond_of_isHostInstr {i : Instr} (hi : isHostInstr i = true) (s : State) (r : Response) :
    exec i (respond s r) = exec i s := by
  cases i with
  | xorin | mix | bar | xorout | reservedU => cases hi
  | rdA | rdB | rdZ | rdCtrl | rdStatus | wrA | wrB | wrZ | wrCtrl | wrStatus => rfl
  | reservedT | badAccessT | start | ctrlNop | ctrlReserved => rfl

/-- An instruction of the host's that only answers gives the same answer again. -/
theorem exec_again_of_respond {i : Instr} (hi : isHostInstr i = true) {s : State} {r : Response}
    (h : exec i s = .next (respond s r)) : exec i (respond s r) = .next (respond s r) := by
  rw [exec_respond_of_isHostInstr hi, h]

theorem exec_rdZ_of_idle {s : State} (hb : s.busy = false) (i : Index) :
    exec (.rdZ i) s = .next (respond s (okayRead (readWord s.z i))) := by
  simp [exec, execRdZ, hb, answerRead_eq]

theorem exec_rdZ_of_busy {s : State} (hb : s.busy = true) (i : Index) :
    exec (.rdZ i) s = .next (respond s (errorResponse .read .lockedBusy)) := by
  simp [exec, execRdZ, hb, raiseBusError_eq]

/-- A read is answered, and only the response changes. -/
theorem exec_read {u : Transaction} (hu : u.kind = .read) (s : State) :
    ∃ r, exec (decode (.t u)) s = .next (respond s r) := by
  simp only [decode, decodeTransaction]
  split_ifs
  · exact ⟨_, rfl⟩
  · exact ⟨_, rfl⟩
  · simp only [hu, dispatchTransaction]
    split_ifs
    · exact ⟨_, rfl⟩
    · exact ⟨_, rfl⟩
    · cases hb : s.busy with
      | false => exact ⟨_, exec_rdZ_of_idle hb _⟩
      | true => exact ⟨_, exec_rdZ_of_busy hb _⟩
    · exact ⟨_, rfl⟩
    · exact ⟨_, rfl⟩

theorem exec_wrA_of_idle {s : State} (hb : s.busy = false) (i : Index) (v : Word) :
    exec (.wrA i v) s = .next (respond (writeA s i v) okayWrite) := by
  simp [exec, execWrA, hb, answerWrite_eq]

theorem exec_wrA_of_busy {s : State} (hb : s.busy = true) (i : Index) (v : Word) :
    exec (.wrA i v) s = .next (respond s (errorResponse (.write v) .lockedBusy)) := by
  simp [exec, execWrA, hb, raiseBusError_eq]

theorem exec_wrB_of_idle {s : State} (hb : s.busy = false) (i : Index) (v : Word) :
    exec (.wrB i v) s = .next (respond (writeB s i v) okayWrite) := by
  simp [exec, execWrB, hb, answerWrite_eq]

theorem exec_wrB_of_busy {s : State} (hb : s.busy = true) (i : Index) (v : Word) :
    exec (.wrB i v) s = .next (respond s (errorResponse (.write v) .lockedBusy)) := by
  simp [exec, execWrB, hb, raiseBusError_eq]

@[simp] theorem writeWord_writeWord (p : Block) (i : Index) (v w : Word) :
    writeWord (writeWord p i v) i w = writeWord p i w := by
  simp [writeWord]

@[simp] theorem markWritten_markWritten (m : Vector Bool 128) (i : Index) :
    markWritten (markWritten m i) i = markWritten m i := by
  simp [markWritten]

@[simp] theorem writeA_writeA (s : State) (i : Index) (v w : Word) :
    writeA (writeA s i v) i w = writeA s i w := by
  simp [writeA]

@[simp] theorem writeB_writeB (s : State) (i : Index) (v w : Word) :
    writeB (writeB s i v) i w = writeB s i w := by
  simp [writeB]

/-- WR.A is idempotent: done again it stores the word that is there, or is refused again. -/
theorem exec_wrA_again {s t : State} {i : Index} {v : Word} (h : exec (.wrA i v) s = .next t) :
    exec (.wrA i v) t = .next t := by
  cases hb : s.busy with
  | false =>
    rw [exec_wrA_of_idle hb] at h
    cases h
    rw [exec_respond_of_isHostInstr rfl, exec_wrA_of_idle (by simpa using hb), writeA_writeA]
  | true =>
    rw [exec_wrA_of_busy hb] at h
    cases h
    exact exec_again_of_respond rfl (exec_wrA_of_busy hb i v)

/-- WR.B is idempotent, as WR.A is. -/
theorem exec_wrB_again {s t : State} {i : Index} {v : Word} (h : exec (.wrB i v) s = .next t) :
    exec (.wrB i v) t = .next t := by
  cases hb : s.busy with
  | false =>
    rw [exec_wrB_of_idle hb] at h
    cases h
    rw [exec_respond_of_isHostInstr rfl, exec_wrB_of_idle (by simpa using hb), writeB_writeB]
  | true =>
    rw [exec_wrB_of_busy hb] at h
    cases h
    exact exec_again_of_respond rfl (exec_wrB_of_busy hb i v)

/-- The write of START starts a run while none is in progress (R150). -/
theorem exec_wrCtrl_one_of_idle {s : State} (hb : s.busy = false) :
    exec (.wrCtrl 1) s = .next (respond (startRun s) okayWrite) := by
  rw [exec, execWrCtrl, if_neg (by decide), if_neg (by simp [hb]), if_neg (by decide), answerWrite_eq]

/-- The write of START is refused during a run (R151). -/
theorem exec_wrCtrl_one_of_busy {s : State} (hb : s.busy = true) :
    exec (.wrCtrl 1) s = .next (respond s (errorResponse (.write 1) .lockedBusy)) := by
  rw [exec, execWrCtrl, if_neg (by decide), if_pos hb, raiseBusError_eq]

/-! ### The result after a run (R53) -/

/-- While DONE = 1 a step that is no reset keeps DONE, BUSY and Z, or it is an accepted START, which keeps Z. -/
theorem step_keeps_result {s t : State} (hl : StatusLegal s) (hd : s.done = true) (hr : NoResetNext s)
    (h : step s = .next t) :
    t.z = s.z ∧ ((t.done = true ∧ t.busy = false) ∨ (t.busy = true ∧ t.done = false ∧
      (s.inputs.head? = some (.ctrl 1) ∨ s.inputs.head? = some (.host ⟨.write 1, 0xC00, .eight⟩)))) := by
  have hb := hl.busy_of_done hd
  obtain ⟨c, hc, -⟩ | ⟨e, hunit, he⟩ | ⟨-, he⟩ := step_next_cases h
  · exact absurd hc (hr c)
  · refine ⟨he.z_eq, ?_⟩
    obtain ⟨hbusy, hdone, -⟩ | ⟨hstart, hbusy, hdone, -⟩ := he.status_cases
    · exact .inl ⟨hdone.trans hd, hbusy.trans hb⟩
    · exact .inr ⟨hbusy, hdone, head?_of_hostUnit_start hunit hstart⟩
  · rw [engineTurn_idle (s := popInput s) hb] at he
    cases he
    exact ⟨rfl, .inl ⟨hd, hb⟩⟩

end Sys2Proof.Machine

/-! ### The obligations -/

namespace Sys2Proof.Proofs

open Sys2Proof.Machine

/-- Settles O30: a read only answers, and no instruction of the host's reads the answer before; a word written twice is
written once; an accepted START leaves BUSY = 1, which refuses the next one. -/
theorem sideEffectsOfTransactions : Obligations.SideEffectsOfTransactions := by
  refine ⟨?read, fun _ _ _ _ h => exec_wrA_again h, fun _ _ _ _ h => exec_wrB_again h, ?start⟩
  case read =>
    intro u s t hu h
    obtain ⟨r, hr⟩ := exec_read hu s
    rw [hr] at h
    cases h
    exact ⟨onlyResponse_respond s r, exec_again_of_respond (isHostInstr_decode (by simp)) hr⟩
  case start =>
    intro s t hb h
    rw [exec_wrCtrl_one_of_idle hb] at h
    cases h
    refine ⟨rfl, _, exec_wrCtrl_one_of_busy rfl, fun heq => ?_, rfl⟩
    have hresp := congrArg State.response heq
    simp [errorResponse, okayWrite] at hresp

/-- Settles O31, from the little-endian sum of a word's eight bytes. -/
theorem blocksAreLittleEndian : Obligations.BlocksAreLittleEndian := by
  intro m i
  refine ⟨?sum, fun j hj => ⟨extractLsb'_readWord_blockOfBytes m i hj, ?byte⟩⟩
  case sum =>
    rw [readWord_blockOfBytes, wordOfBytes_toNat]
    refine congrArg List.sum (List.map_congr_left fun j hj => ?_)
    rw [index_append_byte i (List.mem_range.1 hj)]
  case byte =>
    rw [blockByte_eq_extractLsb' _ i hj, extractLsb'_readWord_blockOfBytes m i hj]

/-- Settles O32: a region's bytes are its block's in order, and byte 8*i + j of a block is byte j of word i. -/
theorem windowBytesAreBlockBytes : Obligations.WindowBytesAreBlockBytes := by
  intro s
  refine ⟨fun k hk => ⟨windowByte_regionA s hk, windowByte_regionB s hk, windowByte_regionZ s hk⟩, fun i j hj => ?_⟩
  have hk : 8 * i.toNat + j < 1024 := by
    have hi := i.isLt
    omega
  simp only [Nat.add_assoc, windowByte_regionA s hk, windowByte_regionB s hk, windowByte_regionZ s hk,
    blockByte_eq_extractLsb' _ i hj, and_self]

/-- Settles O43: but for a START the host's units keep DONE and Z, and an idle engine takes no step. -/
theorem resultStaysUntilTheNextStart : Obligations.ResultStaysUntilTheNextStart := by
  intro s t hl hd hr h
  obtain ⟨hz, ⟨hdone, hbusy⟩ | ⟨hbusy, hdone, hstart⟩⟩ := step_keeps_result hl hd hr h
  · exact .inl ⟨hdone, hbusy, hz, fun i => ⟨_, exec_rdZ_of_idle hbusy i, by rw [hz]; rfl⟩⟩
  · exact .inr ⟨hbusy, hdone, hz, hstart⟩

/-- Settles O33: the window's 4096 offsets are the addresses BASE to BASE + 4095. -/
theorem windowIsFourKilobytesAtBase : Obligations.WindowIsFourKilobytesAtBase :=
  ⟨fun _ => rfl, fun _ _ => windowOffset_eq_some_iff, fun _ => windowOffset_eq_none_iff⟩

end Sys2Proof.Proofs
end

section
/-! PROOFS of the family 30_encoding.md: decoding and encoding are inverse, which words are reserved, how a transaction's
offset selects its instruction, and the CTRL commands. -/

namespace Sys2Proof

/-! ### Decoding undoes encoding (R60 to R65) -/

theorem decode_encode : ∀ {i : Instr}, i.wellFormed = true → decode (encode i) = i
  | .xorin => Laws.RoundTrip.xorin
  | .mix a b c d => Laws.RoundTrip.mix a b c d
  | .bar => Laws.RoundTrip.bar
  | .xorout => Laws.RoundTrip.xorout
  | .reservedU w => Laws.RoundTrip.reservedU w
  | .rdA i => Laws.RoundTrip.rdA i
  | .wrA i v => Laws.RoundTrip.wrA i v
  | .rdB i => Laws.RoundTrip.rdB i
  | .wrB i v => Laws.RoundTrip.wrB i v
  | .rdZ i => Laws.RoundTrip.rdZ i
  | .wrZ i v => Laws.RoundTrip.wrZ i v
  | .rdCtrl => Laws.RoundTrip.rdCtrl
  | .wrCtrl v => Laws.RoundTrip.wrCtrl v
  | .rdStatus => Laws.RoundTrip.rdStatus
  | .wrStatus v => Laws.RoundTrip.wrStatus v
  | .reservedT kind off => Laws.RoundTrip.reservedT kind off
  | .badAccessT t => Laws.RoundTrip.badAccessT t
  | .start => Laws.RoundTrip.start
  | .ctrlNop => Laws.RoundTrip.ctrlNop
  | .ctrlReserved v => Laws.RoundTrip.ctrlReserved v

theorem decode_of_encode_eq {i : Instr} {e : Encoded} (hw : i.wellFormed = true) (he : encode i = e) :
    decode e = i := by
  rw [← he, decode_encode hw]

/-! ### Format U (R62, R65, R67) -/

/-- A micro-operation word is one of the three fixed words, a MIX word of four distinct indices, or reserved. -/
theorem microWord_cases (w : MicroWord) :
    w = 0x10000000 ∨ w = 0x30000000 ∨ w = 0x40000000 ∨
      (∃ a b c d, pairwiseDistinct a b c d = true ∧ encodeMix a b c d = w) ∨ reservedMicroWord w = true := by
  have fixed {op : Nat} (hop : op < 16) (hq : w.toNat / 2 ^ 28 = op) (hr : w.toNat % 2 ^ 28 = 0) :
      w = BitVec.ofNat 32 (op * 2 ^ 28) := by
    apply BitVec.eq_of_toNat_eq
    rw [BitVec.toNat_ofNat]
    omega
  by_cases hres : reservedMicroWord w = true
  · exact .inr (.inr (.inr (.inr hres)))
  · simp only [reservedMicroWord] at hres
    split_ifs at hres with h2 h134
    · have hop : opField w = 2 := by
        apply BitVec.eq_of_toNat_eq
        rw [opField, field_toNat, h2]
        rfl
      have hdistinct : pairwiseDistinct (iaField w) (ibField w) (icField w) (idField w) = true := by
        simpa [iaField, ibField, icField, idField] using hres
      exact .inr (.inr (.inr (.inl ⟨_, _, _, _, hdistinct, encodeMix_fields hop⟩)))
    · have hr : w.toNat % 2 ^ 28 = 0 := by simpa using hres
      obtain h | h | h := h134
      · exact .inl (fixed (by decide) h hr)
      · exact .inr (.inl (fixed (by decide) h hr))
      · exact .inr (.inr (.inl (fixed (by decide) h hr)))
    · exact absurd rfl hres

theorem pairwiseDistinct_iff_nodup {a b c d : Index} :
    pairwiseDistinct a b c d = true ↔ [a.toNat, b.toNat, c.toNat, d.toNat].Nodup := by
  rw [Machine.pairwiseDistinct_iff]
  simp [BitVec.toNat_inj, and_assoc]

/-- R67's three kinds of reserved word, by the number of the op field. -/
theorem reservedMicroWord_iff (w : MicroWord) :
    reservedMicroWord w = true ↔
      (w.toNat / 2 ^ 28 = 0 ∨ 5 ≤ w.toNat / 2 ^ 28
        ∨ ((w.toNat / 2 ^ 28 = 1 ∨ w.toNat / 2 ^ 28 = 3 ∨ w.toNat / 2 ^ 28 = 4) ∧ w.toNat % 2 ^ 28 ≠ 0)
        ∨ (w.toNat / 2 ^ 28 = 2 ∧
            ¬[w.toNat / 2 ^ 21 % 2 ^ 7, w.toNat / 2 ^ 14 % 2 ^ 7, w.toNat / 2 ^ 7 % 2 ^ 7,
              w.toNat % 2 ^ 7].Nodup)) := by
  simp only [reservedMicroWord]
  split_ifs with h2 h134
  · rw [Bool.not_eq_true', ← Bool.not_eq_true, pairwiseDistinct_iff_nodup]
    simp only [field_toNat, h2]
    simp
  · rw [bne_iff_ne]
    omega
  · simp only [true_iff]
    omega

/-! ### Format T (R61, R66) -/

/-- The offset of a buffer's word is the region's base and 8 times the word's index. -/
theorem regionOffset_of_bounds {off : Offset} {r : BitVec 2} (h8 : off.toNat % 8 = 0)
    (hlo : r.toNat * 1024 ≤ off.toNat) (hhi : off.toNat < r.toNat * 1024 + 1024) :
    regionOffset r (BitVec.ofNat 7 (off.toNat / 8)) = off := by
  apply BitVec.eq_of_toNat_eq
  rw [regionOffset_toNat, BitVec.toNat_ofNat]
  omega

/-- An aligned offset below the reserved ones is a word of A, of B or of Z, or CTRL, or STATUS. -/
theorem offset_cases {off : Offset} (h8 : off.toNat % 8 = 0) (hres : ¬0xC10 ≤ off.toNat) :
    (off.toNat < 0x400 ∧ regionOffset 0 (BitVec.ofNat 7 (off.toNat / 8)) = off) ∨
    (0x400 ≤ off.toNat ∧ off.toNat < 0x800 ∧ regionOffset 1 (BitVec.ofNat 7 (off.toNat / 8)) = off) ∨
    (0x800 ≤ off.toNat ∧ off.toNat < 0xC00 ∧ regionOffset 2 (BitVec.ofNat 7 (off.toNat / 8)) = off) ∨
    ctrlOffset = off ∨ statusOffset = off := by
  by_cases hA : off.toNat < 0x400
  · exact .inl ⟨hA, regionOffset_of_bounds h8 (by simp) (by simpa using hA)⟩
  by_cases hB : off.toNat < 0x800
  · exact .inr (.inl ⟨by omega, hB, regionOffset_of_bounds h8 (by simp; omega) (by simpa using hB)⟩)
  by_cases hZ : off.toNat < 0xC00
  · exact .inr (.inr (.inl ⟨by omega, hZ, regionOffset_of_bounds h8 (by simp; omega) (by simpa using hZ)⟩))
  by_cases hC : off.toNat = 0xC00
  · exact .inr (.inr (.inr (.inl (BitVec.eq_of_toNat_eq hC.symm))))
  · have hS : off.toNat = 0xC08 := by omega
    exact .inr (.inr (.inr (.inr (BitVec.eq_of_toNat_eq hS.symm))))

/-! ### Encoding reaches every unit -/

theorem unit_of_offset_eq {k : Access} {o off : Offset} (h : o = off) :
    wordTransaction k o = .t ⟨k, off, .eight⟩ := by
  rw [h, wordTransaction]

theorem exists_encode_eq_u (w : MicroWord) : ∃ i : Instr, i.wellFormed = true ∧ encode i = .u w := by
  obtain rfl | rfl | rfl | ⟨a, b, c, d, hd, rfl⟩ | hres := microWord_cases w
  · exact ⟨.xorin, rfl, rfl⟩
  · exact ⟨.bar, rfl, rfl⟩
  · exact ⟨.xorout, rfl, rfl⟩
  · exact ⟨.mix a b c d, hd, rfl⟩
  · exact ⟨.reservedU w, hres, rfl⟩

theorem exists_encode_eq_t (t : Transaction) : ∃ i : Instr, i.wellFormed = true ∧ encode i = .t t := by
  obtain ⟨k, off, z⟩ := t
  by_cases hbad : badAccess ⟨k, off, z⟩ = true
  · exact ⟨.badAccessT ⟨k, off, z⟩, hbad, rfl⟩
  obtain ⟨rfl, h8⟩ : z = .eight ∧ off.toNat % 8 = 0 := by simpa [badAccess] using hbad
  by_cases hres : 0xC10 ≤ off.toNat
  · exact ⟨.reservedT k off, by simp [Instr.wellFormed, reservedOffset, hres, h8], rfl⟩
  obtain ⟨-, h⟩ | ⟨-, -, h⟩ | ⟨-, -, h⟩ | h | h := offset_cases h8 hres
  · cases k with
    | read => exact ⟨.rdA _, rfl, unit_of_offset_eq h⟩
    | write v => exact ⟨.wrA _ v, rfl, unit_of_offset_eq h⟩
  · cases k with
    | read => exact ⟨.rdB _, rfl, unit_of_offset_eq h⟩
    | write v => exact ⟨.wrB _ v, rfl, unit_of_offset_eq h⟩
  · cases k with
    | read => exact ⟨.rdZ _, rfl, unit_of_offset_eq h⟩
    | write v => exact ⟨.wrZ _ v, rfl, unit_of_offset_eq h⟩
  · cases k with
    | read => exact ⟨.rdCtrl, rfl, unit_of_offset_eq h⟩
    | write v => exact ⟨.wrCtrl v, rfl, unit_of_offset_eq h⟩
  · cases k with
    | read => exact ⟨.rdStatus, rfl, unit_of_offset_eq h⟩
    | write v => exact ⟨.wrStatus v, rfl, unit_of_offset_eq h⟩

theorem exists_encode_eq_c (v : Word) : ∃ i : Instr, i.wellFormed = true ∧ encode i = .c v := by
  by_cases h0 : v = 0
  · exact ⟨.ctrlNop, rfl, by rw [h0, encode]⟩
  by_cases h1 : v = 1
  · exact ⟨.start, rfl, by rw [h1, encode]⟩
  refine ⟨.ctrlReserved v, ?_, rfl⟩
  have h0' : v.toNat ≠ 0 := fun h => h0 (BitVec.eq_of_toNat_eq h)
  have h1' : v.toNat ≠ 1 := fun h => h1 (BitVec.eq_of_toNat_eq h)
  rw [Instr.wellFormed, bne_iff_ne]
  omega

/-- Every unit of R60 encodes some well-formed instruction. -/
theorem exists_encode_eq : ∀ e : Encoded, ∃ i : Instr, i.wellFormed = true ∧ encode i = e
  | .u w => exists_encode_eq_u w
  | .t t => exists_encode_eq_t t
  | .c v => exists_encode_eq_c v

theorem wellFormed_decode (e : Encoded) : (decode e).wellFormed = true := by
  obtain ⟨i, hw, he⟩ := exists_encode_eq e
  rwa [decode_of_encode_eq hw he]

theorem encode_decode (e : Encoded) : encode (decode e) = e := by
  obtain ⟨i, hw, he⟩ := exists_encode_eq e
  rwa [decode_of_encode_eq hw he]

/-- The decoder calls a micro-operation word reserved exactly when R67 does. -/
theorem decode_eq_reservedU_iff (w : MicroWord) : decode (.u w) = .reservedU w ↔ reservedMicroWord w = true := by
  constructor
  · intro h
    have hw := wellFormed_decode (.u w)
    rwa [h] at hw
  · exact Laws.RoundTrip.reservedU w

namespace Machine

/-! ### The schedule ROM (R69, R70) -/

/-- No word of the ROM is reserved (R69). -/
theorem decode_ne_reservedU_of_mem_scheduleRom {w : MicroWord} (hw : w ∈ scheduleRom) :
    decode (.u w) ≠ .reservedU w := by
  intro h
  obtain ⟨k, hk⟩ := List.mem_iff_getElem?.1 hw
  have hok : romInstrOk k (decode (.u w)) = true := rom_entry_ok hk
  rw [h] at hok
  cases hok

/-- The ROM of R69's listing is R70's, window by window. -/
theorem generatedRom_eq_scheduleRom : generatedRom = scheduleRom := by
  rw [scheduleRom, windowW1_eq, windowW2_eq, windowW3_eq, windowW4_eq]
  simp [generatedRom]

/-! ### CTRL commands (R63, R150 to R153) -/

/-- Bits 63:1 of a CTRL data word are 0 exactly for the words 0 and 1 (R63). -/
theorem reservedBits_eq_zero_iff (v : Word) : v.extractLsb' 1 63 = 0 ↔ v = 0 ∨ v = 1 := by
  have hv := v.isLt
  simp only [← BitVec.toNat_inj, field_toNat, BitVec.ofNat_eq_ofNat, BitVec.toNat_ofNat]
  omega

theorem decode_command_of_two_le {v : Word} (h : 2 ≤ v.toNat) : decode (.c v) = .ctrlReserved v := by
  refine Laws.RoundTrip.ctrlReserved v ?_
  rw [Instr.wellFormed, bne_iff_ne]
  omega

theorem exec_ctrlNop (s : State) : exec .ctrlNop s = .next (respond s okayWrite) := rfl

/-- A CTRL data word with a reserved bit set is refused, and the label tells whether a run is in progress (R152). -/
theorem exec_ctrlReserved (v : Word) (s : State) :
    exec (.ctrlReserved v) s =
      .next (respond s (errorResponse (.write v) (if s.busy then .lockedBusy else .reservedBits))) := rfl

theorem exec_start_of_idle {s : State} (hb : s.busy = false) :
    exec .start s = .next (respond (startRun s) okayWrite) := by
  rw [exec, execStart, if_neg (by simp [hb]), answerWrite_eq]

theorem exec_start_of_busy {s : State} (hb : s.busy = true) :
    exec .start s = .next (respond s (errorResponse (.write 1) .lockedBusy)) := by
  rw [exec, execStart, if_pos hb, raiseBusError_eq]

theorem exec_wrCtrl_zero (s : State) : exec (.wrCtrl 0) s = .next (respond s okayWrite) := rfl

/-- The write of a CTRL data word with a reserved bit set is refused as CTRL.RESERVED is (R152). -/
theorem exec_wrCtrl_of_reservedBits {v : Word} (hv : 2 ≤ v.toNat) (s : State) :
    exec (.wrCtrl v) s =
      .next (respond s (errorResponse (.write v) (if s.busy then .lockedBusy else .reservedBits))) := by
  have h01 : ¬(v = 0 ∨ v = 1) := by rintro (rfl | rfl) <;> simp at hv
  have hbits : v.extractLsb' 1 63 ≠ 0 := mt (reservedBits_eq_zero_iff v).1 h01
  rw [exec, execWrCtrl, if_neg fun h0 => h01 (.inl h0)]
  cases hb : s.busy with
  | false => rw [if_neg (by decide), if_pos hbits, raiseBusError_eq, if_neg (by decide)]
  | true => rw [if_pos rfl, raiseBusError_eq, if_pos rfl]

theorem command_cases (v : Word) : v = 0 ∨ v = 1 ∨ 2 ≤ v.toNat := by
  simp only [← BitVec.toNat_inj, BitVec.ofNat_eq_ofNat, BitVec.toNat_ofNat]
  omega

/-- A CTRL data word decoded on its own means what WR.CTRL of it means. -/
theorem exec_command_eq_exec_wrCtrl (v : Word) (s : State) : exec (decode (.c v)) s = exec (.wrCtrl v) s := by
  obtain rfl | rfl | hv := command_cases v
  · have hdecode : decode (.c 0) = .ctrlNop := Laws.RoundTrip.ctrlNop rfl
    rw [hdecode, exec_ctrlNop, exec_wrCtrl_zero]
  · have hdecode : decode (.c 1) = .start := Laws.RoundTrip.start rfl
    rw [hdecode]
    cases hb : s.busy with
    | false => rw [exec_start_of_idle hb, exec_wrCtrl_one_of_idle hb]
    | true => rw [exec_start_of_busy hb, exec_wrCtrl_one_of_busy hb]
  · rw [decode_command_of_two_le hv, exec_ctrlReserved, exec_wrCtrl_of_reservedBits hv]

/-- A started run shows only in the bytes of STATUS (R150). -/
theorem windowByte_respond_startRun (s : State) (r : Response) {off : Offset}
    (hoff : off.toNat < 0xC08 ∨ 0xC10 ≤ off.toNat) :
    windowByte (respond (startRun s) r) off = windowByte s off := by
  simp only [windowByte, respond_a, respond_b, respond_z, startRun_a, startRun_b, startRun_z]
  by_cases hctrl : off.toNat < 0xC08
  · simp only [if_pos hctrl]
  · have hstatus : ¬off.toNat < 0xC10 := by omega
    simp only [if_neg hstatus]

end Machine
end Sys2Proof

/-! ### The obligations -/

namespace Sys2Proof.Proofs

open Sys2Proof.Machine

/-- Settles O1: a well-formed instruction's encoding decodes to it, and every unit is such an encoding. -/
theorem decodeAndEncodeAreInverse : Obligations.DecodeAndEncodeAreInverse :=
  ⟨fun _ => decode_encode, fun e => ⟨wellFormed_decode e, encode_decode e⟩⟩

/-- Settles O3: the decoder's reserved words are the well-formed RESERVED.U, which are R67's; each ROM entry decodes to a
micro-operation of the schedule. -/
theorem reservedMicroWordsAreRefused : Obligations.ReservedMicroWordsAreRefused :=
  ⟨fun w => (decode_eq_reservedU_iff w).trans (reservedMicroWord_iff w), fun _ _ => rfl,
    fun _ => decode_ne_reservedU_of_mem_scheduleRom⟩

/-- Settles O4: in each range of offsets the transaction is the encoding of the instruction R66 names. -/
theorem transactionsDispatchByOffset : Obligations.TransactionsDispatchByOffset := by
  intro k off z
  by_cases hbad : z ≠ .eight ∨ off.toNat % 8 ≠ 0
  · rw [if_pos hbad]
    exact Laws.RoundTrip.badAccessT ⟨k, off, z⟩ (by simpa [Instr.wellFormed, badAccess] using hbad)
  obtain ⟨rfl, h8⟩ : z = .eight ∧ off.toNat % 8 = 0 := by simpa using hbad
  rw [if_neg hbad]
  by_cases hres : 0xC10 ≤ off.toNat
  · rw [if_pos hres]
    exact Laws.RoundTrip.reservedT k off (by simp [Instr.wellFormed, reservedOffset, hres, h8])
  rw [if_neg hres]
  obtain ⟨hA, h⟩ | ⟨hA, hB, h⟩ | ⟨hB, hZ, h⟩ | h | h := offset_cases h8 hres
  · simp only [if_pos hA]
    cases k <;> exact decode_of_encode_eq rfl (unit_of_offset_eq h)
  · simp only [if_neg (Nat.not_lt.2 hA), if_pos hB]
    cases k <;> exact decode_of_encode_eq rfl (unit_of_offset_eq h)
  · simp only [if_neg (show ¬off.toNat < 0x400 by omega), if_neg (Nat.not_lt.2 hB), if_pos hZ]
    cases k <;> exact decode_of_encode_eq rfl (unit_of_offset_eq h)
  · subst h
    cases k with
    | read => exact Laws.RoundTrip.rdCtrl rfl
    | write v => exact Laws.RoundTrip.wrCtrl v rfl
  · subst h
    cases k with
    | read => exact Laws.RoundTrip.rdStatus rfl
    | write v => exact Laws.RoundTrip.wrStatus v rfl

/-- Settles O25, by the cases of the data word: 0, 1, and those with a reserved bit. -/
theorem commandsAreCtrlWrites : Obligations.CommandsAreCtrlWrites := by
  intro v s
  have hdecode : decode (.t ⟨.write v, 0xC00, .eight⟩) = .wrCtrl v := Laws.RoundTrip.wrCtrl v rfl
  rw [hdecode, exec_command_eq_exec_wrCtrl]

/-- Settles O2, by evaluating the decoder on each unit. -/
theorem specWordsDecode : Obligations.SpecWordsDecode := by
  unfold Obligations.SpecWordsDecode
  decide

/-- Settles O5, from the windows as the quads of R70. -/
theorem romIsTheGeneratedSchedule : Obligations.RomIsTheGeneratedSchedule :=
  ⟨generatedRom_eq_scheduleRom, rom_length, rfl⟩

/-- Settles O23: START is answered with a started run while idle, and with a refusal during a run. -/
theorem startCommandStartsARun : Obligations.StartCommandStartsARun := by
  refine ⟨Laws.RoundTrip.start rfl, fun s => ⟨fun hb => ?idle, fun hb => ?busy⟩⟩
  case idle =>
    exact ⟨_, exec_start_of_idle hb, rfl, rfl, rfl, rfl, rfl, rfl, rfl, rfl, rfl, rfl, rfl, rfl,
      fun _ hoff => windowByte_respond_startRun s _ hoff⟩
  case busy => exact ⟨_, exec_start_of_busy hb, rfl, onlyResponse_respond s _⟩

/-- Settles O24: both commands are answered, and an answer changes only the response. -/
theorem otherCtrlCommandsChangeNothing : Obligations.OtherCtrlCommandsChangeNothing :=
  ⟨Laws.RoundTrip.ctrlNop rfl, fun _ => decode_command_of_two_le, fun v s =>
    ⟨⟨_, exec_ctrlNop s, rfl, onlyResponse_respond s _⟩, ⟨_, exec_ctrlReserved v s, rfl, onlyResponse_respond s _⟩⟩⟩

/-- Settles O59, by evaluating the encoder, the ROM and the assembler on the example of R77. -/
theorem encodingExampleOfTheSpec : Obligations.EncodingExampleOfTheSpec := by
  unfold Obligations.EncodingExampleOfTheSpec
  decide

end Sys2Proof.Proofs
end

section
/-! PROOFS of the family 40_word_mixer.md: the multiply-add and the rotate as arithmetic, the rotate bit by bit, the
chain of the mixer's stages, and MIX on the words of X. -/

namespace Sys2Proof.Machine

/-! ### The multiply-add (R13, R81) -/

theorem lo32_toNat (x : Word) : (lo32 x).toNat = x.toNat % 2 ^ 32 := by
  rw [lo32, BitVec.toNat_setWidth_of_le (by decide), field_toNat, pow_zero, Nat.div_one]

/-- The largest product of two 32-bit numbers is the square of the largest of them. -/
theorem low_product_le (m n : Nat) : (m % 2 ^ 32) * (n % 2 ^ 32) ≤ 2 ^ 64 - 2 ^ 33 + 1 :=
  calc (m % 2 ^ 32) * (n % 2 ^ 32)
      ≤ (2 ^ 32 - 1) * (2 ^ 32 - 1) :=
        Nat.mul_le_mul (Nat.le_pred_of_lt (Nat.mod_lt _ (by decide))) (Nat.le_pred_of_lt (Nat.mod_lt _ (by decide)))
    _ = 2 ^ 64 - 2 ^ 33 + 1 := by decide

/-- The product of two low halves does not wrap. -/
theorem lo32_mul_lo32_toNat (x y : Word) :
    (lo32 x * lo32 y).toNat = (x.toNat % 2 ^ 32) * (y.toNat % 2 ^ 32) := by
  have hle := low_product_le x.toNat y.toNat
  rw [BitVec.toNat_mul, lo32_toNat, lo32_toNat, Nat.mod_eq_of_lt (by omega)]

theorem two_mul_lo32_mul_lo32 (x y : Word) : 2 * lo32 x * lo32 y = (lo32 x * lo32 y) <<< 1 := by
  rw [BitVec.mul_assoc, BitVec.shiftLeft_eq_mul_twoPow, BitVec.mul_comm]
  rfl

theorem multiplyAdd_toNat (x y : Word) : (multiplyAdd x y).toNat =
    (x.toNat + y.toNat + 2 * (x.toNat % 2 ^ 32) * (y.toNat % 2 ^ 32)) % 2 ^ 64 := by
  rw [multiplyAdd, BitVec.mul_assoc, BitVec.toNat_add, BitVec.toNat_add, BitVec.toNat_mul, lo32_mul_lo32_toNat,
    ← Nat.add_mod, Nat.mul_assoc]
  rfl

theorem multiplyAdd_comm (x y : Word) : multiplyAdd x y = multiplyAdd y x := by
  rw [multiplyAdd, multiplyAdd, BitVec.add_comm x, BitVec.mul_assoc, BitVec.mul_comm (lo32 x), BitVec.mul_assoc]

@[simp] theorem multiplyAdd_zero (x : Word) : multiplyAdd x 0#64 = x := by
  simp [multiplyAdd, lo32]

/-! ### The rotate (R82) -/

/-- The two shifts share no set bit, so their OR is their sum. -/
theorem rotr_eq_add (x : Word) {n : Nat} (hn : n ≤ 64) : rotr x n = x >>> n + x <<< (64 - n) := by
  have hdisjoint : x >>> n &&& x <<< (64 - n) = 0 := by
    ext k hk
    by_cases hlow : k < 64 - n
    · simp [hlow]
    · have hout : x.getLsbD (n + k) = false := BitVec.getLsbD_of_ge _ _ (by omega)
      simp [hout]
  exact (BitVec.add_eq_or_of_and_eq_zero _ _ hdisjoint).symm

theorem rotr_toNat (x : Word) {n : Nat} (hn : n ≤ 64) :
    (rotr x n).toNat = (x.toNat / 2 ^ n + x.toNat * 2 ^ (64 - n)) % 2 ^ 64 := by
  rw [rotr_eq_add x hn, BitVec.toNat_add, BitVec.toNat_ushiftRight, BitVec.toNat_shiftLeft, Nat.add_mod_mod,
    Nat.shiftRight_eq_div_pow, Nat.shiftLeft_eq]

theorem getLsbD_rotr (x : Word) {n k : Nat} (hn : n ≤ 64) (hk : k < 64) :
    (rotr x n).getLsbD k = x.getLsbD ((k + n) % 64) := by
  rw [rotr, BitVec.getLsbD_or, BitVec.getLsbD_ushiftRight, BitVec.getLsbD_shiftLeft]
  by_cases hlow : k < 64 - n
  · rw [Nat.mod_eq_of_lt (by omega), Nat.add_comm]
    simp [hlow]
  · have hout : x.getLsbD (n + k) = false := BitVec.getLsbD_of_ge _ _ (by omega)
    have hwrap : (k + n) % 64 = k - (64 - n) := by omega
    simp [hout, hwrap, hk, hlow]

@[simp] theorem rotr_zero (n : Nat) : rotr 0#64 n = 0#64 := by
  simp [rotr]

theorem rotate_amount_le : ∀ n ∈ [32, 24, 16, 63], n ≤ 64 := by decide

/-! ### MIX (R86) -/

theorem pairwiseDistinct_iff_indices_nodup {a b c d : Index} :
    pairwiseDistinct a b c d = true ↔ [a, b, c, d].Nodup := by
  rw [pairwiseDistinct_iff]
  simp [and_assoc]

theorem exec_mix_of_distinct {a b c d : Index} (h : pairwiseDistinct a b c d = true) (s : State) :
    exec (.mix a b c d) s = .next (advance (setX s (mixAt s.x (a, b, c, d)))) := by
  rw [exec, execMix, if_pos h]

theorem exec_mix_of_equal {a b c d : Index} (h : ¬pairwiseDistinct a b c d = true) (s : State) :
    exec (.mix a b c d) s = .refused (.mixIndicesEqual a b c d) := by
  rw [exec, execMix, if_neg h]

/-- The four words MIX writes are G of the four words it read, in order. -/
theorem readQuad_mixAt_same (x : Block) {a b c d : Index} (h : pairwiseDistinct a b c d = true) :
    readQuad (mixAt x (a, b, c, d)) (a, b, c, d) =
      mixWords (readWord x a) (readWord x b) (readWord x c) (readWord x d) := by
  obtain ⟨hab, hac, had, hbc, hbd, hcd⟩ := pairwiseDistinct_iff.1 h
  simp [readQuad, readWord_mixAt x h, hab.symm, hac.symm, had.symm, hbc.symm, hbd.symm, hcd.symm]

/-- G of the worked example's four words. -/
theorem mixWords_one_two_three_four : mixWords 1 2 3 4 =
    (0x0000010000002d07, 0x5a0e02060e2a0606, 0x2d07000307150003, 0x2d07000001030000) := by
  decide

end Sys2Proof.Machine

/-! ### The obligations -/

namespace Sys2Proof.Proofs

open Sys2Proof.Machine

/-- Settles O7: the doubled product's bound is reached at the two largest words. -/
theorem multiplyAddIsExactModulo : Obligations.MultiplyAddIsExactModulo :=
  ⟨⟨-1, -1, by decide⟩, fun x y =>
    ⟨multiplyAdd_toNat x y, lo32_toNat x, lo32_mul_lo32_toNat x y, low_product_le x.toNat y.toNat,
      two_mul_lo32_mul_lo32 x y, multiplyAdd_comm x y, multiplyAdd_zero x⟩⟩

/-- Settles O8, from the rotate by any amount up to the width. -/
theorem rotateIsAFixedBitPermutation : Obligations.RotateIsAFixedBitPermutation :=
  ⟨fun x n hn => ⟨rotr_toNat x (rotate_amount_le n hn), fun _ => getLsbD_rotr x (rotate_amount_le n hn)⟩,
    fun _ => BitVec.or_comm _ _⟩

/-- Settles O9: the stage values are the model's own, odd stages a multiply-add and even ones a rotate. -/
theorem mixerFollowsTheEightStages : Obligations.MixerFollowsTheEightStages := fun _ _ _ _ =>
  ⟨_, _, _, _, _, _, _, _,
    multiplyAdd_toNat _ _, rotr_toNat _ (by decide), multiplyAdd_toNat _ _, rotr_toNat _ (by decide),
    multiplyAdd_toNat _ _, rotr_toNat _ (by decide), multiplyAdd_toNat _ _, rotr_toNat _ (by decide), rfl⟩

/-- Settles O10: every stage of G keeps zero. -/
theorem mixerKeepsZeros : Obligations.MixerKeepsZeros :=
  ⟨by simp [mixWords], multiplyAdd_zero 0, fun n _ => rotr_zero n⟩

/-- Settles O12: MIX on distinct words is a MIX of the block X with upc advanced, and it is refused on equal ones. -/
theorem mixUpdatesItsFourWords : Obligations.MixUpdatesItsFourWords := by
  refine ⟨fun _ _ _ _ => decodeMicro_encodeMix, fun a b c d s hnodup => ?distinct,
    fun a b c d s hnodup => ?equal, fun s t h0 h1 h2 h3 h => ?worked, fun _ => engineTurn_idle⟩
  case distinct =>
    have hd := pairwiseDistinct_iff_indices_nodup.2 hnodup
    exact ⟨_, exec_mix_of_distinct hd s, readQuad_mixAt_same s.x hd, fun _ => readWord_mixAt_other s.x, rfl,
      sameHostSide_advance_setX s _, rfl, rfl, rfl, sameBytes_of_fields rfl rfl rfl rfl rfl⟩
  case equal => exact exec_mix_of_equal (mt pairwiseDistinct_iff_indices_nodup.1 hnodup) s
  case worked =>
    have hd : pairwiseDistinct 0 1 2 3 = true := by decide
    rw [exec_mix_of_distinct hd] at h
    cases h
    have hg := readQuad_mixAt_same s.x hd
    rw [h0, h1, h2, h3, mixWords_one_two_three_four] at hg
    simpa [readQuad] using hg

end Sys2Proof.Proofs
end

section
/-! PROOFS of the family 41_round_permutation.md: the order within a sub-pass is free (R106), since a group's quads
are among its window's, no two of which share an index. -/

namespace Sys2Proof.Machine

/-- The quads of one group are, in order, among those of its window. -/
theorem groupQuads_sublist_windowQuads (m : Nat → Nat → Index) (quads : List (Nat × Nat × Nat × Nat)) {g : Nat}
    (hg : g < 8) : (groupQuads (m g) quads).Sublist (windowQuads m quads) := by
  have hgroup : [g].Sublist (List.range 8) := List.singleton_sublist.2 (List.mem_range.2 hg)
  simpa [windowQuads] using hgroup.flatMap fun k => groupQuads (m k) quads

/-- In a window no two quads of which share an index, the quads of one group may be taken in any order. -/
theorem mixAll_groupQuads_perm {m : Nat → Nat → Index} {l quads : List (Nat × Nat × Nat × Nat)}
    (hwindow : quadsApart (windowQuads m quads) = true) {g : Nat} (hg : g < 8) (hperm : l.Perm quads) (x : Block) :
    mixAll x (groupQuads (m g) l) = mixAll x (groupQuads (m g) quads) := by
  have hgroup : (groupQuads (m g) quads).Pairwise fun p q => disjointQuads p q = true :=
    (quadsApart_pairwise hwindow).sublist (groupQuads_sublist_windowQuads m quads hg)
  have hquads : (groupQuads (m g) quads).Perm (groupQuads (m g) l) := hperm.symm.map _
  exact (mixAll_perm hquads hgroup x).symm

end Sys2Proof.Machine

/-! ### The obligation -/

namespace Sys2Proof.Proofs

open Sys2Proof.Machine

/-- Settles O51: each group's quads are among those of a window of the ROM, no two of which share an index. -/
theorem subPassOrderIsFree : Obligations.SubPassOrderIsFree := by
  rintro x l quads g hg (rfl | rfl) hperm
  case inl =>
    exact ⟨mixAll_groupQuads_perm windowQuads_row_column_apart hg hperm x,
      mixAll_groupQuads_perm windowQuads_col_column_apart hg hperm x⟩
  case inr =>
    exact ⟨mixAll_groupQuads_perm windowQuads_row_diagonal_apart hg hperm x,
      mixAll_groupQuads_perm windowQuads_col_diagonal_apart hg hperm x⟩

end Sys2Proof.Proofs
end

section
/-! PROOFS of the family 42_block_compressor.md: XORIN, BAR and XOROUT, the windows of the ROM, the orders that leave the
same block, Compress, and the step of a run. -/

namespace Sys2Proof.Machine

/-! ### Exclusive or of blocks (R130) -/

theorem xorBlocks_comm (p q : Block) : xorBlocks p q = xorBlocks q p :=
  block_ext fun i => by simp [BitVec.xor_comm]

theorem xorBlocks_assoc (p q r : Block) : xorBlocks (xorBlocks p q) r = xorBlocks p (xorBlocks q r) :=
  block_ext fun i => by simp [BitVec.xor_assoc]

theorem xorBlocks_right_comm (p q r : Block) : xorBlocks (xorBlocks p q) r = xorBlocks (xorBlocks p r) q := by
  rw [xorBlocks_assoc, xorBlocks_comm q, ← xorBlocks_assoc]

@[simp] theorem xorBlocks_self (p : Block) : xorBlocks p p = zeroBlock :=
  block_ext fun i => by simp

@[simp] theorem xorBlocks_zeroBlock_left (p : Block) : xorBlocks zeroBlock p = p :=
  block_ext fun i => by simp

/-! ### XORIN, BAR and XOROUT (R120 to R122) -/

theorem exec_xorin (s : State) : exec .xorin s = .next (advance (setX s (xorBlocks s.a s.b))) := rfl

theorem exec_bar (s : State) : exec .bar s = .next (advance s) := rfl

/-- An entry that forms X and advances upc changes nothing else. -/
theorem advance_setX_frame (s : State) (blk : Block) :
    (advance (setX s blk)).upc = s.upc + 1 ∧ SameHostSide s (advance (setX s blk)) ∧
      (advance (setX s blk)).z = s.z ∧ (advance (setX s blk)).busy = s.busy ∧
      (advance (setX s blk)).done = s.done ∧ SameBytes s (advance (setX s blk)) :=
  ⟨rfl, sameHostSide_advance_setX s blk, rfl, rfl, rfl, sameBytes_of_fields rfl rfl rfl rfl rfl⟩

@[simp] theorem xoroutState_x (s : State) : (xoroutState s).x = s.x := by simp [xoroutState]

theorem sameHostSide_xoroutState (s : State) : SameHostSide s (xoroutState s) := sameHostSide_finishRun_setZ s _

/-- XOROUT shows only in the bytes of Z and of STATUS (R122). -/
theorem windowByte_xoroutState (s : State) {off : Offset}
    (hoff : off.toNat < 0x800 ∨ 0xC10 ≤ off.toNat ∨ (0xC00 ≤ off.toNat ∧ off.toNat < 0xC08)) :
    windowByte (xoroutState s) off = windowByte s off := by
  simp only [windowByte, xoroutState_a, xoroutState_b]
  obtain hinput | hreserved | ⟨hlow, hctrl⟩ := hoff
  · simp only [if_pos hinput]
  · simp only [if_neg (show ¬off.toNat < 0xC00 by omega), if_neg (Nat.not_lt.2 hreserved)]
  · simp only [if_neg (Nat.not_lt.2 hlow), if_pos hctrl]

/-! ### Zero stays zero (R133) -/

theorem writeWord_zeroBlock (i : Index) : writeWord zeroBlock i 0 = zeroBlock :=
  block_ext fun j => by simp [readWord_writeWord]

@[simp] theorem mixAt_zeroBlock (q : Quad) : mixAt zeroBlock q = zeroBlock := by
  have hmix : mixWords 0 0 0 0 = (0, 0, 0, 0) := by simp [mixWords]
  simp only [mixAt, readQuad, readWord_zeroBlock, hmix, writeQuad, writeWord_zeroBlock]

theorem mixAll_zeroBlock (l : List Quad) : mixAll zeroBlock l = zeroBlock := by
  induction l with
  | nil => rfl
  | cons q l ih => rw [mixAll_cons, mixAt_zeroBlock, ih]

theorem permuteBlock_zeroBlock : permuteBlock zeroBlock = zeroBlock := by
  simp only [permuteBlock, permAll_eq_mixAll, mixAll_zeroBlock]

/-! ### Compress (R132, R134) -/

theorem compress_comm (p q : Block) : compress p q = compress q p := by
  rw [compress, compress, xorBlocks_comm p q, xorBlocks_right_comm]

/-- X starts as A ^ A = 0 and stays 0, and Z = 0 ^ A ^ A (R134). -/
theorem compress_self (p : Block) : compress p p = zeroBlock := by
  rw [compress, xorBlocks_self, permuteBlock_zeroBlock, xorBlocks_zeroBlock_left, xorBlocks_self]

/-! ### The order of the groups (R135) -/

/-- The quads of one PERM, both sub-passes (R104). -/
def permQuads (m : Nat → Index) : List Quad := groupQuads m (columnQuads ++ diagonalQuads)

theorem groupQuads_append (m : Nat → Index) (l k : List (Nat × Nat × Nat × Nat)) :
    groupQuads m (l ++ k) = groupQuads m l ++ groupQuads m k := List.map_append

theorem perm_eq_mixAll (m : Nat → Index) (x : Block) : perm m x = mixAll x (permQuads m) := by
  rw [perm, permQuads, groupQuads_append, mixAll_append]

/-- The quads of both sub-passes name group words 0 to 15 (R102, R103). -/
theorem groupWords_lt : ∀ q ∈ columnQuads ++ diagonalQuads, q.1 < 16 ∧ q.2.1 < 16 ∧ q.2.2.1 < 16 ∧ q.2.2.2 < 16 := by
  decide

/-- A PERM names only the sixteen words of its group. -/
theorem exists_word_of_mem_permQuads {m : Nat → Index} {p : Quad} (hp : p ∈ permQuads m) {i : Index}
    (hi : i ∈ quadIndices p) : ∃ k < 16, i = m k := by
  obtain ⟨⟨a, b, c, d⟩, hq, rfl⟩ := List.mem_map.1 hp
  obtain ⟨ha, hb, hc, hd⟩ := groupWords_lt _ hq
  simp only [quadIndices, List.mem_cons, List.not_mem_nil, or_false] at hi
  obtain h | h | h | h := hi
  · exact ⟨a, ha, h⟩
  · exact ⟨b, hb, h⟩
  · exact ⟨c, hc, h⟩
  · exact ⟨d, hd, h⟩

theorem disjointQuads_iff {p q : Quad} : disjointQuads p q = true ↔ (quadIndices p).Disjoint (quadIndices q) := by
  simp [disjointQuads, List.Disjoint]

/-- Two lists of quads that share no index may be taken in either order. -/
theorem mixAll_comm {l k : List Quad} (h : ∀ p ∈ l, ∀ q ∈ k, disjointQuads p q = true) (x : Block) :
    mixAll (mixAll x l) k = mixAll (mixAll x k) l := by
  induction l generalizing x with
  | nil => rfl
  | cons p l ih =>
    rw [mixAll_cons, mixAll_cons, ih fun r hr => h r (List.mem_cons_of_mem p hr),
      mixAll_mixAt_comm x (h p List.mem_cons_self)]

/-- The function `group` tells from an index which of the eight groups of the layout `m` holds it. -/
def GroupedBy (group : Index → Nat) (m : Nat → Nat → Index) : Prop := ∀ g < 8, ∀ i < 16, group (m g i) = g

/-- Row group r holds the indices 16*r to 16*r + 15 (R100). -/
theorem rowIndex_groupedBy : GroupedBy (fun i => i.toNat / 16) rowIndex := by
  intro r hr i hi
  simp only [rowIndex, BitVec.toNat_ofNat]
  omega

/-- Column group j holds the indices that are 2*j or 2*j + 1 modulo 16 (R101). -/
theorem colIndex_groupedBy : GroupedBy (fun i => i.toNat % 16 / 2) colIndex := by
  intro j hj i hi
  simp only [colIndex, BitVec.toNat_ofNat]
  omega

/-- Different groups share no index. -/
theorem GroupedBy.quads_disjoint {group : Index → Nat} {m : Nat → Nat → Index} (hm : GroupedBy group m) {g h : Nat}
    (hg : g < 8) (hh : h < 8) (hne : g ≠ h) {p q : Quad} (hp : p ∈ permQuads (m g)) (hq : q ∈ permQuads (m h)) :
    disjointQuads p q = true := by
  refine disjointQuads_iff.2 fun i hip hiq => hne ?_
  obtain ⟨k, hk, hik⟩ := exists_word_of_mem_permQuads hp hip
  obtain ⟨l, hl, hil⟩ := exists_word_of_mem_permQuads hq hiq
  calc g = group i := by rw [hik, hm g hg k hk]
    _ = h := by rw [hil, hm h hh l hl]

/-- The PERMs of two groups of a layout commute (R107). -/
theorem GroupedBy.perm_comm {group : Index → Nat} {m : Nat → Nat → Index} (hm : GroupedBy group m) {g h : Nat}
    (hg : g < 8) (hh : h < 8) (x : Block) : perm (m h) (perm (m g) x) = perm (m g) (perm (m h) x) := by
  by_cases hne : g = h
  · rw [hne]
  · simp only [perm_eq_mixAll]
    exact mixAll_comm (fun _ hp _ hq => hm.quads_disjoint hg hh hne hp hq) x

/-- The eight groups of a layout may be taken in any order. -/
theorem GroupedBy.permAll_perm {group : Index → Nat} {m : Nat → Nat → Index} (hm : GroupedBy group m) {l : List Nat}
    (hl : l.Perm (List.range 8)) (x : Block) : permAll m l x = permAll m (List.range 8) x :=
  have hlt : ∀ g ∈ l, g < 8 := fun _ hg => List.mem_range.1 (hl.mem_iff.1 hg)
  hl.foldl_eq' (fun g hg h hh y => hm.perm_comm (hlt g hg) (hlt h hh) y) x

/-! ### The windows (R126, R127) -/

/-- MIXes of proper quads of which no two share an index commute. -/
theorem mixAt_comm_of_mem {l : List Quad} (h : quadsApart l = true) {p q : Quad} (hp : p ∈ l) (hq : q ∈ l)
    (x : Block) : mixAt (mixAt x p) q = mixAt (mixAt x q) p := by
  have hsymm : Std.Symm fun p q : Quad => disjointQuads p q = true := ⟨fun _ _ => disjointQuads_comm⟩
  by_cases hne : p = q
  · rw [hne]
  · exact mixAt_comm x ((quadsApart_pairwise h).forall hp hq hne)

/-- The MIX words of quads of which no two share an index may be performed in any order. -/
theorem foldl_microEffect_perm {quads : List Quad} (h : quadsApart quads = true) {l : List MicroWord}
    (hl : l.Perm (mixWordsOf quads)) (x : Block) :
    l.foldl microEffect x = (mixWordsOf quads).foldl microEffect x := by
  refine hl.foldl_eq' (fun u hu v hv y => ?_) x
  obtain ⟨p, hp, rfl⟩ := List.mem_map.1 (hl.mem_iff.1 hu)
  obtain ⟨q, hq, rfl⟩ := List.mem_map.1 (hl.mem_iff.1 hv)
  simp only [microEffect_encodeMix _ (quadsApart_proper h _ hp), microEffect_encodeMix _ (quadsApart_proper h _ hq)]
  exact mixAt_comm_of_mem h hp hq y

/-- A window of the ROM is the MIX words of 32 proper quads of which no two share an index. -/
theorem window_quads {w : List MicroWord} (hw : w ∈ [windowW1, windowW2, windowW3, windowW4]) :
    ∃ quads : List Quad, w = mixWordsOf quads ∧ quadsApart quads = true ∧ quads.length = 32 := by
  simp only [List.mem_cons, List.not_mem_nil, or_false] at hw
  obtain rfl | rfl | rfl | rfl := hw
  · exact ⟨_, windowW1_eq, windowQuads_row_column_apart, rfl⟩
  · exact ⟨_, windowW2_eq, windowQuads_row_diagonal_apart, rfl⟩
  · exact ⟨_, windowW3_eq, windowQuads_col_column_apart, rfl⟩
  · exact ⟨_, windowW4_eq, windowQuads_col_diagonal_apart, rfl⟩

/-- The index fields of MIX words are the indices of their quads. -/
theorem indexFields_mixWordsOf (l : List Quad) :
    (mixWordsOf l).flatMap (fun u => [iaField u, ibField u, icField u, idField u]) = l.flatMap quadIndices := by
  simp only [mixWordsOf, List.flatMap_map, iaField_encodeMix, ibField_encodeMix, icField_encodeMix, idField_encodeMix]
  rfl

theorem quadIndices_nodup {q : Quad} (h : properQuad q = true) : (quadIndices q).Nodup :=
  pairwiseDistinct_iff_indices_nodup.1 h

theorem flatMap_quadIndices_nodup {l : List Quad} (h : quadsApart l = true) : (l.flatMap quadIndices).Nodup :=
  List.nodup_flatMap.2 ⟨fun q hq => quadIndices_nodup (quadsApart_proper h q hq),
    (quadsApart_pairwise h).imp disjointQuads_iff.1⟩

/-- 128 indices without a repeat are all of them. -/
theorem mem_of_nodup_of_length {l : List Index} (hn : l.Nodup) (hl : l.length = 128) (i : Index) : i ∈ l := by
  have hnums : (l.map BitVec.toNat).Nodup := hn.map fun _ _ => BitVec.eq_of_toNat_eq
  have hsub : l.map BitVec.toNat ⊆ List.range 128 := by
    intro n hmem
    obtain ⟨j, -, rfl⟩ := List.mem_map.1 hmem
    exact List.mem_range.2 j.isLt
  have hperm : (l.map BitVec.toNat).Perm (List.range 128) :=
    (hnums.subperm hsub).perm_of_length_le (by simp [hl])
  obtain ⟨j, hj, hji⟩ := List.mem_map.1 (hperm.mem_iff.2 (List.mem_range.2 i.isLt))
  rwa [← BitVec.eq_of_toNat_eq hji]

/-- 32 proper quads of which no two share an index name each of the 128 indices once. -/
theorem count_flatMap_quadIndices {l : List Quad} (h : quadsApart l = true) (hl : l.length = 32) (i : Index) :
    (l.flatMap quadIndices).count i = 1 := by
  have hn := flatMap_quadIndices_nodup h
  have hlen : (l.flatMap quadIndices).length = 128 := by
    simp [List.length_flatMap, quadIndices, hl]
  exact List.count_eq_one_of_mem hn (mem_of_nodup_of_length hn hlen i)

/-! ### The step (R128, R129) -/

theorem popInput_of_cons {s : State} {e : Input} {rest : List Input} (h : s.inputs = e :: rest) :
    popInput s = { s with inputs := rest } := by
  rw [popInput, h, List.tail_cons]

theorem step_ctrl {s : State} {v : Word} {rest : List Input} (h : s.inputs = .ctrl v :: rest) :
    step s = exec (decode (.c v)) (popInput s) := by
  rw [step, h]
  rfl

/-- During a run with no probe the engine's turn is exec of the ROM entry at upc. -/
theorem engineTurn_of_rom {s : State} {w : MicroWord} (hb : s.busy = true) (hp : NoProbe s)
    (hw : scheduleRom[s.upc.toNat]? = some w) : engineTurn s = exec (decode (.u w)) s := by
  have hfetch : fetchMicroWord s = some w := by
    rw [fetchMicroWord, hp, hw]
  rw [engineTurn, if_pos hb, hfetch, clearProbe_of_noProbe hp]

/-- The engine's turn at upc 134 of a run is XOROUT. -/
theorem step_xorout {s : State} (hnext : engineNext s) (hb : s.busy = true) (hp : NoProbe s) (hu : s.upc = 134) :
    step s = .next (xoroutState (popInput s)) := by
  have hlast : scheduleRom[(popInput s).upc.toNat]? = some 0x40000000 := by
    rw [popInput_upc, hu]
    rfl
  rw [step_engine hnext, engineTurn_of_rom (s := popInput s) hb hp hlast]
  exact exec_xorout _

/-- The one unit of the host's that takes an idle state to a busy one is an accepted START. -/
theorem HostEffect.eq_startRun_of_busy {s t : State} {e : Encoded} (h : HostEffect s e t) (hs : s.busy = false)
    (ht : t.busy = true) :
    (e = .c 1 ∨ e = .t ⟨.write 1, ctrlOffset, .eight⟩) ∧ t = respond (startRun s) okayWrite := by
  cases h with
  | answered r => simp [hs] at ht
  | wroteA _ _ _ => simp [hs] at ht
  | wroteB _ _ _ => simp [hs] at ht
  | started _ isStart => exact ⟨isStart, rfl⟩

end Sys2Proof.Machine

/-! ### The obligations -/

namespace Sys2Proof.Proofs

open Sys2Proof.Machine

/-- Settles O38: XORIN puts X on schedule, each entry takes it one on, and no unit of the host's touches X, A or B
during a run. -/
theorem stepKeepsXOnSchedule : Obligations.StepKeepsXOnSchedule := fun _ _ hi h => step_keeps_runInvariant hi h

/-- Settles O14, from the state XOROUT leaves. -/
theorem xoroutAssemblesTheResult : Obligations.XoroutAssemblesTheResult := by
  refine ⟨Laws.RoundTrip.xorout rfl, fun s => ⟨_, exec_xorout s, fun i => by simp, xoroutState_busy s,
    xoroutState_done s, xoroutState_upc s, xoroutState_x s, sameHostSide_xoroutState s,
    fun _ hoff => windowByte_xoroutState s hoff, fun i keep hkeep => ?_⟩⟩
  rw [hkeep, xoroutState_z, xorBlocks_assoc, readWord_xorBlocks]

/-- Settles O42: a reset leaves an idle state, an idle engine takes no step, and of the host's units only START is left. -/
theorem onlyAnAcceptedStartStartsARun : Obligations.OnlyAnAcceptedStartStartsARun := by
  refine ⟨fun s t hs h ht => ?_, rfl⟩
  obtain ⟨c, -, rfl⟩ | ⟨e, hunit, he⟩ | ⟨-, he⟩ := step_next_cases h
  · simp at ht
  · obtain ⟨hstart, rfl⟩ := he.eq_startRun_of_busy hs ht
    exact ⟨head?_of_hostUnit_start hunit hstart, rfl, rfl, rfl⟩
  · rw [engineTurn_idle (s := popInput s) hs] at he
    cases he
    simp [hs] at ht

/-- Settles O50: zero goes through steps 2 and 3, and the two XORs of step 4 cancel. -/
theorem compressOfEqualBlocksIsZero : Obligations.CompressOfEqualBlocksIsZero := fun p =>
  ⟨compress_self p, fun hne heq => hne (heq.symm.trans (compress_self p))⟩

/-- Settles O52: two different row groups, or column groups, share no index, so their PERMs commute. -/
theorem groupOrderIsFree : Obligations.GroupOrderIsFree := by
  intro p q l k hl hk
  have hrow := rowIndex_groupedBy.permAll_perm hl (xorBlocks p q)
  exact ⟨hrow, by rw [hrow, colIndex_groupedBy.permAll_perm hk, compress, permuteBlock]⟩

/-- Settles O53: no two quads of a window share an index, so their MIXes commute. -/
theorem windowOrderIsFree : Obligations.WindowOrderIsFree := by
  intro x l w hw hl
  obtain ⟨quads, rfl, hapart, -⟩ := window_quads hw
  exact foldl_microEffect_perm hapart hl x

/-- Settles O54: a group's diagonal quads move past the column quads of the groups after it. -/
theorem romOrderIsTheSourceOrder : Obligations.RomOrderIsTheSourceOrder := fun x =>
  ⟨row_windows_eq_permAll x, col_windows_eq_permAll x⟩

/-- Settles O55: at upc 134 X is steps 2 and 3 of A ^ B, and XOROUT adds A and B. -/
theorem xoroutStepComputesCompress : Obligations.XoroutStepComputesCompress := by
  rintro s ⟨-, hp, hx⟩ hb hu hnext
  refine ⟨_, step_xorout hnext hb hp hu, ?_⟩
  simpa using xorBlocks_x_eq_compress hx hb hu

/-- Settles O6: 32 proper quads of which no two share an index name all 128 indices. -/
theorem windowsNameEveryIndexOnce : Obligations.WindowsNameEveryIndexOnce := by
  refine ⟨rfl, rfl, rfl, rfl, by decide, windowW1_eq, windowW2_eq, windowW3_eq, windowW4_eq, fun w hw => ?_⟩
  obtain ⟨quads, rfl, hapart, hlen⟩ := window_quads hw
  refine ⟨by rw [mixWordsOf, List.length_map, hlen], fun u hu => ?op, fun i => ?once⟩
  case op =>
    obtain ⟨q, -, rfl⟩ := List.mem_map.1 hu
    exact opField_encodeMix _ _ _ _
  case once => rw [indexFields_mixWordsOf, count_flatMap_quadIndices hapart hlen]

/-- Settles O11, from the exclusive or of A and B, word by word. -/
theorem xorinFormsTheWorkingBlock : Obligations.XorinFormsTheWorkingBlock := by
  refine ⟨Laws.RoundTrip.xorin rfl, by decide, fun s => ?_⟩
  obtain ⟨hupc, hhost, hz, hbusy, hdone, hbytes⟩ := advance_setX_frame s (xorBlocks s.a s.b)
  refine ⟨_, exec_xorin s, readWord_xorBlocks s.a s.b, hupc, hhost, hz, hbusy, hdone, hbytes, ?equal, ?worked⟩
  case equal =>
    intro hab i
    simp [hab]
  case worked =>
    intro h0 ha hb
    have hread : ∀ i, readWord (xorBlocks s.a s.b) i = readWord s.a i := fun i => by simp [hb]
    exact ⟨(hread 0).trans h0, fun i hi => (hread i).trans (ha i hi)⟩

/-- Settles O13: BAR is the advance of upc alone. -/
theorem barOnlyAdvances : Obligations.BarOnlyAdvances :=
  ⟨Laws.RoundTrip.bar rfl, fun s => ⟨_, exec_bar s, rfl, rfl, sameHostSide_advance s, rfl, rfl, rfl,
    sameBytes_of_fields rfl rfl rfl rfl rfl⟩⟩

/-- Settles O34, by the next event and, in the engine's turn, by whether a run is in progress. -/
theorem stepRunsTheDecodedUnit : Obligations.StepRunsTheDecodedUnit := by
  refine ⟨?host, ?ctrl, ?entry, ?lastEntry, ?idle, ?lastIdle⟩
  case host =>
    intro s u rest h
    rw [step_host h, popInput_of_cons h]
  case ctrl =>
    intro s v rest h
    rw [step_ctrl h, popInput_of_cons h]
  case entry =>
    intro s w rest h hb hp hw
    rw [step_engine (.inr (by rw [h, List.head?_cons])), engineTurn_of_rom (s := popInput s) hb hp hw,
      popInput_of_cons h]
  case lastEntry =>
    intro s w h hb hp hw
    rw [step_engine (.inl h), popInput_of_nil h, engineTurn_of_rom hb hp hw]
  case idle =>
    intro s rest h hb
    rw [step_engine (.inr (by rw [h, List.head?_cons])), engineTurn_idle (s := popInput s) hb, popInput_of_cons h]
  case lastIdle =>
    intro s h hb
    rw [step_engine (.inl h), popInput_of_nil h, engineTurn_idle hb]

/-- Settles O48: both exclusive ors are symmetric in A and B. -/
theorem compressIsSymmetric : Obligations.CompressIsSymmetric := compress_comm

/-- Settles O49, as Compress of two equal blocks. -/
theorem compressKeepsTheZeroBlock : Obligations.CompressKeepsTheZeroBlock := compress_self zeroBlock

end Sys2Proof.Proofs
end

section
/-! PROOFS of the family 43_host_interface.md: the call protocol, the host's writes to A, B and CTRL, and how every
transaction is answered. -/

namespace Sys2Proof.Machine

/-! ### Loading the blocks (R157 step 2) -/

/-- Different regions or different words have different offsets. -/
theorem regionOffset_inj {r r' : BitVec 2} {i j : Index} : regionOffset r i = regionOffset r' j ↔ r = r' ∧ i = j := by
  constructor
  · intro h
    exact ⟨by simpa using congrArg regionField h, by simpa using congrArg wordField h⟩
  · rintro ⟨rfl, rfl⟩
    rfl

/-- The write that loads word i of the block p into a region. -/
def loadWrite (r : BitVec 2) (p : Block) (i : Index) : Input := wordWrite (regionOffset r i) (readWord p i)

theorem eq_of_loadWrite_eq {r r' : BitVec 2} {p q : Block} {i j : Index} (h : loadWrite r p i = loadWrite r' q j) :
    r = r' ∧ i = j := by
  simp only [loadWrite, wordWrite, Input.host.injEq, Transaction.mk.injEq] at h
  obtain ⟨-, hoff, -⟩ := h
  exact regionOffset_inj.1 hoff

theorem mem_inputWrites_iff {p q : Block} {e : Input} :
    e ∈ inputWrites p q ↔ ∃ i, e = loadWrite 0 p i ∨ e = loadWrite 1 q i := mem_inputWrites

/-- Word i of a buffer is the word of p, and it counts as written since reset (R192). -/
def WordLoaded (p blk : Block) (written : Vector Bool 128) (i : Index) : Prop :=
  readWord blk i = readWord p i ∧ wasWritten written i = true

/-- A write of word j of p loads that word and keeps every other word loaded. -/
theorem wordLoaded_write {p blk : Block} {written : Vector Bool 128} {i j : Index}
    (h : i = j ∨ WordLoaded p blk written i) :
    WordLoaded p (writeWord blk j (readWord p j)) (markWritten written j) i := by
  by_cases hij : i = j
  · subst hij
    exact ⟨readWord_writeWord_same blk i _, wasWritten_markWritten_same written i⟩
  · obtain ⟨hread, hmark⟩ := h.resolve_left hij
    exact ⟨(readWord_writeWord_ne blk _ hij).trans hread, (wasWritten_markWritten_ne written hij).trans hmark⟩

/-- From s to t no word of p in A and of q in B was lost, and those that the writes of l load were loaded. -/
def LoadsWords (p q : Block) (l : List Input) (s t : State) : Prop :=
  (∀ i, loadWrite 0 p i ∈ l ∨ WordLoaded p s.a s.aWritten i → WordLoaded p t.a t.aWritten i) ∧
  (∀ i, loadWrite 1 q i ∈ l ∨ WordLoaded q s.b s.bWritten i → WordLoaded q t.b t.bWritten i)

theorem LoadsWords.refl (p q : Block) (s : State) : LoadsWords p q [] s s :=
  ⟨fun _ h => h.resolve_left List.not_mem_nil, fun _ h => h.resolve_left List.not_mem_nil⟩

theorem LoadsWords.cons {p q : Block} {e : Input} {l : List Input} {s u t : State} (h : LoadsWords p q [e] s u)
    (h' : LoadsWords p q l u t) : LoadsWords p q (e :: l) s t := by
  obtain ⟨ha, hb⟩ := h
  obtain ⟨ha', hb'⟩ := h'
  simp only [List.mem_singleton] at ha hb
  constructor
  · intro i hi
    rw [List.mem_cons, or_right_comm] at hi
    exact ha' i (hi.elim (.inr ∘ ha i) .inl)
  · intro i hi
    rw [List.mem_cons, or_right_comm] at hi
    exact hb' i (hi.elim (.inr ∘ hb i) .inl)

/-- While no run is in progress, a step of one of the 256 writes loads its word. -/
theorem step_loadWrite {p q : Block} {s : State} {e : Input} {rest : List Input} (he : e ∈ inputWrites p q)
    (h : s.inputs = e :: rest) (hb : s.busy = false) :
    ∃ u, step s = .next u ∧ u.busy = false ∧ LoadsWords p q [e] s u := by
  simp only [LoadsWords, List.mem_singleton]
  obtain ⟨j, rfl | rfl⟩ := mem_inputWrites_iff.1 he
  · refine ⟨_, step_write_a h hb, hb, fun i hi => ?_, fun i hi => ?_⟩
    · exact wordLoaded_write (hi.imp_left fun heq => (eq_of_loadWrite_eq heq).2)
    · exact hi.resolve_left fun heq => absurd (eq_of_loadWrite_eq heq).1 (by decide)
  · refine ⟨_, step_write_b h hb, hb, fun i hi => ?_, fun i hi => ?_⟩
    · exact hi.resolve_left fun heq => absurd (eq_of_loadWrite_eq heq).1 (by decide)
    · exact wordLoaded_write (hi.imp_left fun heq => (eq_of_loadWrite_eq heq).2)

/-- The steps of a list of such writes load their words. -/
theorem runsTo_loadWrites {p q : Block} {l rest : List Input} {s : State} (hl : ∀ e ∈ l, e ∈ inputWrites p q)
    (h : s.inputs = l ++ rest) (hb : s.busy = false) (hp : NoProbe s) :
    ∃ t, RunsTo l.length s t ∧ t.inputs = rest ∧ t.busy = false ∧ NoProbe t ∧ LoadsWords p q l s t := by
  induction l generalizing s with
  | nil => exact ⟨s, rfl, h, hb, hp, .refl p q s⟩
  | cons e l ih =>
    obtain ⟨u, hs, hub, hload⟩ := step_loadWrite (hl e List.mem_cons_self) h hb
    have hui : u.inputs = l ++ rest := by rw [step_inputs hs, h, List.cons_append, List.tail_cons]
    obtain ⟨t, hrun, hti, htb, htp, hloads⟩ :=
      ih (fun e' he' => hl e' (List.mem_cons_of_mem _ he')) hui hub (step_keeps_noProbe hp hs)
    exact ⟨t, (runsTo_succ hs).2 hrun, hti, htb, htp, hload.cons hloads⟩

/-- Once all 256 writes are done, A and B are the two blocks, and every word of them counts as written. -/
theorem LoadsWords.blocks_loaded {p q : Block} {l : List Input} {s t : State} (h : LoadsWords p q l s t)
    (hl : l.Perm (inputWrites p q)) : t.a = p ∧ t.b = q ∧ InputsWritten t := by
  obtain ⟨ha, hb⟩ := h
  have hla : ∀ i, WordLoaded p t.a t.aWritten i := fun i =>
    ha i (.inl (hl.mem_iff.2 (mem_inputWrites_iff.2 ⟨i, .inl rfl⟩)))
  have hlb : ∀ i, WordLoaded q t.b t.bWritten i := fun i =>
    hb i (.inl (hl.mem_iff.2 (mem_inputWrites_iff.2 ⟨i, .inr rfl⟩)))
  exact ⟨block_ext fun i => (hla i).1, block_ext fun i => (hlb i).1, fun i => ⟨(hla i).2, (hlb i).2⟩⟩

/-! ### The run after START (R128, R157 step 4) -/

theorem runsTo_add {j k : Nat} {s u t : State} (h : RunsTo j s u) (h' : RunsTo k u t) : RunsTo (j + k) s t := by
  induction j generalizing s with
  | zero =>
    rw [← runsTo_zero h, Nat.zero_add]
    exact h'
  | succ j ih =>
    obtain ⟨v, hs, hv⟩ := exists_step_of_runsTo_succ h
    rw [Nat.succ_add]
    exact (runsTo_succ hs).2 (ih hv)

theorem noResetNext_of_nil {s : State} (h : s.inputs = []) : NoResetNext s := fun c => by simp [h]

/-- With no event to come, a run below upc 134 takes one more entry. -/
theorem step_before_xorout {s : State} (hi : RunInvariant s) (hb : s.busy = true) (hin : s.inputs = [])
    (hu : s.upc.toNat < 134) : ∃ u, step s = .next u ∧ u.busy = true ∧ u.upc.toNat = s.upc.toNat + 1 := by
  obtain ⟨hl, hp, -⟩ := hi
  have hstep : step s = engineTurn s := by rw [step_engine (.inl hin), popInput_of_nil hin]
  have advanced {blk : Block} (h : engineTurn s = .next (advance (setX s blk))) :
      ∃ u, step s = .next u ∧ u.busy = true ∧ u.upc.toNat = s.upc.toNat + 1 :=
    ⟨_, hstep.trans h, hb, upc_succ_toNat (u := s.upc) (by omega)⟩
  obtain ⟨w, -, -, ⟨-, h⟩ | ⟨-, -, h⟩ | ⟨h134, -⟩⟩ := engineTurn_cases (hl.upc_le hb) hp hb
  · exact advanced h
  · exact advanced h
  · omega

/-- With no event to come, k engine steps of a run take upc k on, up to 134, and keep A and B. -/
theorem runsTo_before_xorout {k : Nat} {s : State} (hi : RunInvariant s) (hb : s.busy = true) (hin : s.inputs = [])
    (hu : s.upc.toNat + k ≤ 134) :
    ∃ t, RunsTo k s t ∧ RunInvariant t ∧ t.busy = true ∧ t.inputs = [] ∧ t.upc.toNat = s.upc.toNat + k ∧
      t.a = s.a ∧ t.b = s.b ∧ t.aWritten = s.aWritten ∧ t.bWritten = s.bWritten := by
  induction k generalizing s with
  | zero => exact ⟨s, rfl, hi, hb, hin, rfl, rfl, rfl, rfl, rfl⟩
  | succ k ih =>
    obtain ⟨u, hs, hub, huu⟩ := step_before_xorout hi hb hin (by omega)
    have huin : u.inputs = [] := by rw [step_inputs hs, hin, List.tail_nil]
    obtain ⟨ha, hb', haw, hbw⟩ := step_keeps_inputs hb (noResetNext_of_nil hin) hs
    obtain ⟨t, hrun, hti, htb, htin, htu, hta, htb', htaw, htbw⟩ :=
      ih (step_keeps_runInvariant hi hs) hub huin (by omega)
    exact ⟨t, (runsTo_succ hs).2 hrun, hti, htb, htin, by omega, hta.trans ha, htb'.trans hb', htaw.trans haw,
      htbw.trans hbw⟩

/-- With no event to come, a run from upc 0 ends after 135 engine steps with Compress(A, B) in Z. -/
theorem runsTo_compress {s : State} (hi : RunInvariant s) (hb : s.busy = true) (hin : s.inputs = [])
    (hu : s.upc = 0) :
    ∃ t, RunsTo 135 s t ∧ t.z = compress s.a s.b ∧ t.a = s.a ∧ t.b = s.b ∧ t.aWritten = s.aWritten ∧
      t.bWritten = s.bWritten ∧ t.busy = false ∧ t.done = true ∧ t.upc = 0 := by
  obtain ⟨u, hrun, ⟨-, hup, hux⟩, hub, huin, huu, ha, hb', haw, hbw⟩ :=
    runsTo_before_xorout (k := 134) hi hb hin (by simp [hu])
  have hu134 : u.upc = 134 := BitVec.eq_of_toNat_eq (by simpa [hu] using huu)
  have hlast := runsTo_one (step_xorout (.inl huin) hub hup hu134)
  obtain ⟨hta, htb, htaw, htbw, -⟩ := sameHostSide_xoroutState (popInput u)
  have hz : (xoroutState (popInput u)).z = compress u.a u.b := by
    simpa using xorBlocks_x_eq_compress hux hub hu134
  rw [ha, hb'] at hz
  exact ⟨_, runsTo_add hrun hlast, hz, hta.trans ha, htb.trans hb', htaw.trans haw, htbw.trans hbw,
    xoroutState_busy _, xoroutState_done _, xoroutState_upc _⟩

/-- A run that a START has just begun meets the invariant of runs. -/
theorem runInvariant_startRun {s : State} (hp : NoProbe s) (r : Response) : RunInvariant (respond (startRun s) r) :=
  ⟨statusLegal_of_running rfl rfl (Nat.zero_le _), hp, fun _ h => absurd h (by simp)⟩

/-! ### STATUS (R148) -/

theorem statusWord_toNat (s : State) : (statusWord s).toNat = 2 * s.done.toNat + s.busy.toNat := by
  rw [statusWord]
  cases s.done <;> cases s.busy <;> rfl

theorem statusWord_of_done {s : State} (hb : s.busy = false) (hd : s.done = true) : statusWord s = 2 :=
  BitVec.eq_of_toNat_eq (by rw [statusWord_toNat, hb, hd]; rfl)

theorem statusWord_of_running {s : State} (hb : s.busy = true) (hd : s.done = false) : statusWord s = 1 :=
  BitVec.eq_of_toNat_eq (by rw [statusWord_toNat, hb, hd]; rfl)

/-- BUSY and DONE are never 1 at once, so STATUS is never 3 (R28). -/
theorem StatusLegal.statusWord_cases {s : State} (h : StatusLegal s) :
    statusWord s = 0 ∨ statusWord s = 1 ∨ statusWord s = 2 := by
  cases hb : s.busy with
  | true => exact .inr (.inl (statusWord_of_running hb (h.done_of_busy hb)))
  | false =>
    cases hd : s.done with
    | false => exact .inl (statusWord_of_idle hb hd)
    | true => exact .inr (.inr (statusWord_of_done hb hd))

/-! ### Where a transaction decodes (R61, R66, R141) -/

theorem regionOffset_eq_ofNat {r : BitVec 2} {i : Index} {n : Nat} (h : r.toNat * 0x400 + 8 * i.toNat = n) :
    regionOffset r i = BitVec.ofNat 12 n := by
  have hr := r.isLt
  have hi := i.isLt
  apply BitVec.eq_of_toNat_eq
  rw [regionOffset_toNat, BitVec.toNat_ofNat]
  omega

/-- An instruction on word i of region r is decoded at the offset 0x400 * r + 8 * i. -/
theorem decode_word {instr : Instr} {k : Access} {r : BitVec 2} {i : Index} {n : Nat} (hw : instr.wellFormed = true)
    (he : encode instr = wordTransaction k (regionOffset r i)) (h : r.toNat * 0x400 + 8 * i.toNat = n) :
    decode (.t ⟨k, BitVec.ofNat 12 n, .eight⟩) = instr :=
  decode_of_encode_eq hw (he.trans (unit_of_offset_eq (regionOffset_eq_ofNat h)))

theorem decode_of_badAccess {u : Transaction} (h : u.size ≠ .eight ∨ u.off.toNat % 8 ≠ 0) :
    decode (.t u) = .badAccessT u :=
  Laws.RoundTrip.badAccessT u (by simpa [Instr.wellFormed, badAccess] using h)

theorem decode_of_reservedOffset {off : Offset} (hres : 0xC10 ≤ off.toNat) (h8 : off.toNat % 8 = 0) (k : Access) :
    decode (.t ⟨k, off, .eight⟩) = .reservedT k off :=
  Laws.RoundTrip.reservedT k off (by simp [Instr.wellFormed, reservedOffset, hres, h8])

/-! ### The bytes of a written word (R42, R143, R145) -/

/-- The offset of byte k of a region's word. -/
theorem regionOffset_add_byte {r : BitVec 2} {i : Index} {k : BitVec 3} {n : Nat}
    (h : r.toNat * 0x400 + (8 * i.toNat + k.toNat) = n) :
    regionOffset r i + k.setWidth 12 = BitVec.ofNat 12 n := by
  have hr := r.isLt
  have hi := i.isLt
  have hk := k.isLt
  apply BitVec.eq_of_toNat_eq
  rw [BitVec.toNat_add, BitVec.toNat_setWidth, regionOffset_toNat, BitVec.toNat_ofNat]
  omega

theorem byte_of_word_lt (i : Index) (k : BitVec 3) : 8 * i.toNat + k.toNat < 1024 := by
  have hi := i.isLt
  have hk := k.isLt
  omega

theorem windowByte_wordA (s : State) (i : Index) (k : BitVec 3) :
    windowByte s (regionOffset 0 i + k.setWidth 12) = some (wordByte (readWord s.a i) k) := by
  rw [regionOffset_add_byte (n := 8 * i.toNat + k.toNat) (by simp), windowByte_regionA s (byte_of_word_lt i k),
    blockByte_eq_extractLsb' _ i k.isLt, wordByte]

theorem windowByte_wordB (s : State) (i : Index) (k : BitVec 3) :
    windowByte s (regionOffset 1 i + k.setWidth 12) = some (wordByte (readWord s.b i) k) := by
  rw [regionOffset_add_byte (n := 0x400 + (8 * i.toNat + k.toNat)) (by simp),
    windowByte_regionB s (byte_of_word_lt i k), blockByte_eq_extractLsb' _ i k.isLt, wordByte]

/-- An offset of a region outside the eight bytes of word i is a byte of another word, so a write of word i leaves it. -/
theorem blockByte_writeWord_outside (p : Block) {r : BitVec 2} {i : Index} (v : Word) {off : Offset}
    (hlo : r.toNat * 0x400 ≤ off.toNat) (hhi : off.toNat < r.toNat * 0x400 + 0x400)
    (hout : off.toNat < (regionOffset r i).toNat ∨ (regionOffset r i).toNat + 8 ≤ off.toNat) :
    blockByte (writeWord p i v) (off.extractLsb' 0 10) = blockByte p (off.extractLsb' 0 10) := by
  have hword : (off.extractLsb' 0 10).extractLsb' 3 7 ≠ i := by
    rintro rfl
    rw [regionOffset_toNat] at hout
    simp only [field_toNat] at hout
    omega
  rw [blockByte, blockByte, readWord_writeWord_ne p v hword]

theorem windowByte_writeA_outside (s : State) {i : Index} (v : Word) {off : Offset}
    (hout : off.toNat < (regionOffset 0 i).toNat ∨ (regionOffset 0 i).toNat + 8 ≤ off.toNat) :
    windowByte (writeA s i v) off = windowByte s off := by
  simp only [windowByte, statusWord, writeA_a, writeA_b, writeA_z, writeA_busy, writeA_done]
  by_cases hA : off.toNat < 0x400
  · rw [if_pos hA, if_pos hA, blockByte_writeWord_outside s.a v (by simp) (by simpa using hA) hout]
  · rw [if_neg hA, if_neg hA]

theorem windowByte_writeB_outside (s : State) {i : Index} (v : Word) {off : Offset}
    (hout : off.toNat < (regionOffset 1 i).toNat ∨ (regionOffset 1 i).toNat + 8 ≤ off.toNat) :
    windowByte (writeB s i v) off = windowByte s off := by
  simp only [windowByte, statusWord, writeB_a, writeB_b, writeB_z, writeB_busy, writeB_done]
  by_cases hB : 0x400 ≤ off.toNat ∧ off.toNat < 0x800
  · rw [blockByte_writeWord_outside s.b v (by simpa using hB.1) (by simpa using hB.2) hout]
  · by_cases hA : off.toNat < 0x400
    · rw [if_pos hA, if_pos hA]
    · have hB' : ¬off.toNat < 0x800 := fun h => hB ⟨Nat.not_lt.1 hA, h⟩
      rw [if_neg hB', if_neg hB']

@[simp] theorem windowByte_respond (s : State) (r : Response) (off : Offset) :
    windowByte (respond s r) off = windowByte s off :=
  sameBytes_of_fields rfl rfl rfl rfl rfl off

/-! ### The answer to each transaction (R142 to R156) -/

theorem exec_rdA (i : Index) (s : State) : exec (.rdA i) s = .next (respond s (okayRead (readWord s.a i))) := rfl

theorem exec_rdB (i : Index) (s : State) : exec (.rdB i) s = .next (respond s (okayRead (readWord s.b i))) := rfl

theorem exec_wrZ (i : Index) (v : Word) (s : State) :
    exec (.wrZ i v) s = .next (respond s (errorResponse (.write v) .readOnly)) := rfl

theorem exec_rdCtrl (s : State) : exec .rdCtrl s = .next (respond s (okayRead 0)) := rfl

theorem exec_rdStatus (s : State) : exec .rdStatus s = .next (respond s (okayRead (statusWord s))) := rfl

theorem exec_wrStatus (v : Word) (s : State) :
    exec (.wrStatus v) s = .next (respond s (errorResponse (.write v) .readOnly)) := rfl

theorem exec_reservedT (k : Access) (off : Offset) (s : State) :
    exec (.reservedT k off) s = .next (respond s (errorResponse k .unmapped)) := rfl

theorem exec_badAccessT (u : Transaction) (s : State) :
    exec (.badAccessT u) s = .next (respond s (errorResponse u.kind .badAccess)) := rfl

theorem errorResponse_eq (k : Access) (e : BusError) :
    errorResponse k e = ⟨.error, if k = .read then some 0 else none, some e⟩ := by
  cases k <;> rfl

/-- The answers R140 allows to a transaction of kind k in state s, by the label of its refusal: a read completes and only
answers; a write completes; a refused transaction only answers. -/
inductive Answers (s : State) (k : Access) : Option BusError → Host.Outcome State Fault Refusal → Prop where
  | read (v : Word) : Answers s k none (.next (respond s (okayRead v)))
  | wrote (t : State) : Answers s k none (.next (respond t okayWrite))
  | refused (e : BusError) : Answers s k (some e) (.next (respond s (errorResponse k e)))

theorem Answers.of_next {s t : State} {k : Access} {label : Option BusError} {r : Response}
    (h : Answers s k label (.next t)) (hr : t.response = some r) :
    (r.label ≠ none → r.resp = .error ∧ OnlyResponse s t) ∧ r.label = label := by
  cases h <;> cases hr
  case read v => exact ⟨fun hne => absurd rfl hne, rfl⟩
  case wrote t => exact ⟨fun hne => absurd rfl hne, rfl⟩
  case refused e => exact ⟨fun _ => ⟨errorResponse_resp k e, onlyResponse_respond s _⟩, errorResponse_label k e⟩

/-- The label with which state s refuses an instruction of format T, if it does (R142 to R156). -/
def refusalOf (s : State) : Instr → Option BusError
  | .badAccessT _ => some .badAccess
  | .reservedT _ _ => some .unmapped
  | .wrZ _ _ | .wrStatus _ => some .readOnly
  | .rdZ _ | .wrA _ _ | .wrB _ _ => if s.busy = true then some .lockedBusy else none
  | .wrCtrl v =>
    if s.busy = true ∧ v ≠ 0 then some .lockedBusy else if 2 ≤ v.toNat then some .reservedBits else none
  | .rdA _ | .rdB _ | .rdCtrl | .rdStatus => none
  | .xorin | .mix _ _ _ _ | .bar | .xorout | .reservedU _ | .start | .ctrlNop | .ctrlReserved _ => none

/-- The answer of an instruction that is refused exactly during a run (R143, R145, R146). -/
theorem answers_of_busy {s : State} {k : Access} {o : Host.Outcome State Fault Refusal}
    (hidle : s.busy = false → Answers s k none o) (hbusy : s.busy = true → Answers s k (some .lockedBusy) o) :
    Answers s k (if s.busy = true then some .lockedBusy else none) o := by
  cases hb : s.busy with
  | false => exact hidle hb
  | true => exact hbusy hb

theorem rdZ_answers (i : Index) (s : State) : Answers s .read (refusalOf s (.rdZ i)) (exec (.rdZ i) s) := by
  refine answers_of_busy (fun hb => ?_) (fun hb => ?_)
  · rw [exec_rdZ_of_idle hb]
    exact .read _
  · rw [exec_rdZ_of_busy hb]
    exact .refused _

theorem wrA_answers (i : Index) (v : Word) (s : State) :
    Answers s (.write v) (refusalOf s (.wrA i v)) (exec (.wrA i v) s) := by
  refine answers_of_busy (fun hb => ?_) (fun hb => ?_)
  · rw [exec_wrA_of_idle hb]
    exact .wrote _
  · rw [exec_wrA_of_busy hb]
    exact .refused _

theorem wrB_answers (i : Index) (v : Word) (s : State) :
    Answers s (.write v) (refusalOf s (.wrB i v)) (exec (.wrB i v) s) := by
  refine answers_of_busy (fun hb => ?_) (fun hb => ?_)
  · rw [exec_wrB_of_idle hb]
    exact .wrote _
  · rw [exec_wrB_of_busy hb]
    exact .refused _

theorem wrCtrl_answers (v : Word) (s : State) :
    Answers s (.write v) (refusalOf s (.wrCtrl v)) (exec (.wrCtrl v) s) := by
  obtain rfl | rfl | hv := command_cases v
  · rw [exec_wrCtrl_zero, refusalOf, if_neg (by simp), if_neg (by decide)]
    exact .wrote _
  · cases hb : s.busy with
    | false =>
      rw [exec_wrCtrl_one_of_idle hb, refusalOf, if_neg (by simp [hb]), if_neg (by decide)]
      exact .wrote _
    | true =>
      rw [exec_wrCtrl_one_of_busy hb, refusalOf, if_pos ⟨hb, by decide⟩]
      exact .refused _
  · rw [exec_wrCtrl_of_reservedBits hv]
    have hne : v ≠ 0 := by
      rintro rfl
      simp at hv
    cases hb : s.busy with
    | false =>
      rw [refusalOf, if_neg (by simp [hb]), if_pos hv]
      exact .refused _
    | true =>
      rw [refusalOf, if_pos ⟨hb, hne⟩]
      exact .refused _

/-- R140: every instruction of format T is answered, with the label of its refusal if it is refused. -/
theorem exec_answers {i : Instr} {u : Transaction} (h : encode i = .t u) (s : State) :
    Answers s u.kind (refusalOf s i) (exec i s) := by
  cases i with
  | xorin | mix | bar | xorout | reservedU | start | ctrlNop | ctrlReserved => cases h
  | rdA | rdB | rdCtrl | rdStatus => cases h; exact .read _
  | wrZ | wrStatus | reservedT | badAccessT => cases h; exact .refused _
  | rdZ i => cases h; exact rdZ_answers i s
  | wrA i v => cases h; exact wrA_answers i v s
  | wrB i v => cases h; exact wrB_answers i v s
  | wrCtrl v => cases h; exact wrCtrl_answers v s

theorem transaction_answers (u : Transaction) (s : State) :
    Answers s u.kind (refusalOf s (decode (.t u))) (exec (decode (.t u)) s) :=
  exec_answers (encode_decode (.t u)) s

/-- The label of a transaction's refusal in state s: the first check of R141's order that applies. -/
def refusalLabel (u : Transaction) (s : State) : Option BusError :=
  if u.size ≠ .eight ∨ u.off.toNat % 8 ≠ 0 then some .badAccess
  else if 0xC10 ≤ u.off.toNat then some .unmapped
  else match u.kind with
    | .read => if 0x800 ≤ u.off.toNat ∧ u.off.toNat < 0xC00 ∧ s.busy = true then some .lockedBusy else none
    | .write v =>
      if (0x800 ≤ u.off.toNat ∧ u.off.toNat < 0xC00) ∨ u.off.toNat = 0xC08 then some .readOnly
      else if s.busy = true ∧ ¬(u.off.toNat = 0xC00 ∧ v = 0) then some .lockedBusy
      else if u.off.toNat = 0xC00 ∧ 2 ≤ v.toNat then some .reservedBits
      else none

/-- Of the aligned reads below the reserved offsets, only those of Z can be refused (R142 to R149). -/
theorem refusalLabel_read {off : Offset} (h8 : off.toNat % 8 = 0) (hres : ¬0xC10 ≤ off.toNat) (s : State) :
    refusalLabel ⟨.read, off, .eight⟩ s =
      if 0x800 ≤ off.toNat ∧ off.toNat < 0xC00 ∧ s.busy = true then some .lockedBusy else none := by
  rw [refusalLabel, if_neg (by simp [h8]), if_neg hres]

/-- The aligned writes to A and B are refused only during a run (R143, R145). -/
theorem refusalLabel_write_input {off : Offset} (h8 : off.toNat % 8 = 0) (hoff : off.toNat < 0x800) (v : Word)
    (s : State) :
    refusalLabel ⟨.write v, off, .eight⟩ s = if s.busy = true then some .lockedBusy else none := by
  have hres : ¬0xC10 ≤ off.toNat := by omega
  have hctrl : off.toNat ≠ 0xC00 := by omega
  rw [refusalLabel, if_neg (by simp [h8]), if_neg hres]
  simp only [hctrl, false_and, not_false_iff, and_true, if_false]
  rw [if_neg (by omega)]

/-- The aligned writes to Z and STATUS are refused in every state (R147, R154). -/
theorem refusalLabel_write_readOnly {off : Offset} (h8 : off.toNat % 8 = 0)
    (hoff : (0x800 ≤ off.toNat ∧ off.toNat < 0xC00) ∨ off.toNat = 0xC08) (v : Word) (s : State) :
    refusalLabel ⟨.write v, off, .eight⟩ s = some .readOnly := by
  have hres : ¬0xC10 ≤ off.toNat := by omega
  rw [refusalLabel, if_neg (by simp [h8]), if_neg hres]
  exact if_pos hoff

theorem refusalLabel_write_ctrl (v : Word) (s : State) :
    refusalLabel ⟨.write v, ctrlOffset, .eight⟩ s =
      if s.busy = true ∧ v ≠ 0 then some .lockedBusy else if 2 ≤ v.toNat then some .reservedBits else none := by
  simp [refusalLabel, ctrlOffset]

/-- The decoder and the instructions' own checks together follow R141's order. -/
theorem refusalOf_decode (u : Transaction) (s : State) : refusalOf s (decode (.t u)) = refusalLabel u s := by
  obtain ⟨k, off, z⟩ := u
  by_cases hbad : z ≠ .eight ∨ off.toNat % 8 ≠ 0
  · rw [decode_of_badAccess hbad, refusalOf, refusalLabel, if_pos hbad]
  obtain ⟨rfl, h8⟩ : z = .eight ∧ off.toNat % 8 = 0 := by simpa using hbad
  by_cases hres : 0xC10 ≤ off.toNat
  · rw [decode_of_reservedOffset hres h8, refusalOf, refusalLabel, if_neg hbad, if_pos hres]
  obtain ⟨hA, h⟩ | ⟨hA, hB, h⟩ | ⟨hB, hZ, h⟩ | h | h := offset_cases h8 hres
  · cases k with
    | read =>
      rw [decode_of_encode_eq (i := .rdA _) rfl (unit_of_offset_eq h), refusalLabel_read h8 hres, if_neg (by omega),
        refusalOf]
    | write v =>
      rw [decode_of_encode_eq (i := .wrA _ v) rfl (unit_of_offset_eq h), refusalLabel_write_input h8 (by omega),
        refusalOf]
  · cases k with
    | read =>
      rw [decode_of_encode_eq (i := .rdB _) rfl (unit_of_offset_eq h), refusalLabel_read h8 hres, if_neg (by omega),
        refusalOf]
    | write v =>
      rw [decode_of_encode_eq (i := .wrB _ v) rfl (unit_of_offset_eq h), refusalLabel_write_input h8 hB, refusalOf]
  · cases k with
    | read =>
      rw [decode_of_encode_eq (i := .rdZ _) rfl (unit_of_offset_eq h), refusalLabel_read h8 hres, refusalOf]
      simp only [hB, hZ, true_and]
    | write v =>
      rw [decode_of_encode_eq (i := .wrZ _ v) rfl (unit_of_offset_eq h),
        refusalLabel_write_readOnly h8 (.inl ⟨hB, hZ⟩), refusalOf]
  · have hC : off.toNat = 0xC00 := congrArg BitVec.toNat h.symm
    cases k with
    | read =>
      rw [decode_of_encode_eq (i := .rdCtrl) rfl (unit_of_offset_eq h), refusalLabel_read h8 hres, if_neg (by omega),
        refusalOf]
    | write v =>
      rw [decode_of_encode_eq (i := .wrCtrl v) rfl (unit_of_offset_eq h), ← h, refusalLabel_write_ctrl, refusalOf]
  · have hS : off.toNat = 0xC08 := congrArg BitVec.toNat h.symm
    cases k with
    | read =>
      rw [decode_of_encode_eq (i := .rdStatus) rfl (unit_of_offset_eq h), refusalLabel_read h8 hres,
        if_neg (by omega), refusalOf]
    | write v =>
      rw [decode_of_encode_eq (i := .wrStatus v) rfl (unit_of_offset_eq h),
        refusalLabel_write_readOnly h8 (.inr hS), refusalOf]

end Sys2Proof.Machine

namespace Sys2Proof.Proofs

open Sys2Proof.Machine

/-- Settles O28: the answer is OKAY with no label, or an ERROR that changes only the response. -/
theorem everyTransactionIsAnswered : Obligations.EveryTransactionIsAnswered := by
  intro u s
  have h := transaction_answers u s
  generalize refusalOf s (decode (.t u)) = label, exec (decode (.t u)) s = outcome at h
  cases h with
  | read v => exact ⟨_, okayRead v, rfl, rfl, by simp, by simp⟩
  | wrote t => exact ⟨_, okayWrite, rfl, rfl, by simp, by simp⟩
  | refused e =>
    refine ⟨_, errorResponse u.kind e, rfl, rfl, fun _ => ⟨onlyResponse_respond s _, fun hread => ?_⟩, by simp⟩
    rw [errorResponse_rdata, if_pos hread]

/-- Settles O29: the answer carries the label of R141's order, and with a label it is an ERROR that changes only the
response. -/
theorem refusalLabelsInOrder : Obligations.RefusalLabelsInOrder := by
  intro u s t r hexec hresponse
  have h := transaction_answers u s
  rw [refusalOf_decode, hexec] at h
  exact h.of_next hresponse

/-- Settles O58: the writes load A and B whatever their order, START begins a run on them, and 135 engine steps end it. -/
theorem callProtocolComputesCompress : Obligations.CallProtocolComputesCompress := by
  intro s p q writes hb hp hperm hin
  have hlen : writes.length = 256 := hperm.length_eq.trans (inputWrites_length p q)
  obtain ⟨u, hload, huin, hub, hup, hloaded⟩ := runsTo_loadWrites (fun e he => hperm.mem_iff.1 he) hin hb hp
  obtain ⟨hua, hub', hwritten⟩ := hloaded.blocks_loaded hperm
  have hstart := runsTo_one (step_write_start huin hub)
  obtain ⟨t, hrun, hz, ha, hb', haw, hbw, hbusy, hdone, -⟩ :=
    runsTo_compress (runInvariant_startRun (s := popInput u) hup okayWrite) rfl (by simp [huin]) rfl
  simp only [respond_a, respond_b, respond_aWritten, respond_bWritten, startRun_a, startRun_b, startRun_aWritten,
    startRun_bWritten, popInput_a, popInput_b, popInput_aWritten, popInput_bWritten, hua, hub'] at hz ha hb' haw hbw
  have hwritten' : InputsWritten t := by rwa [InputsWritten, haw, hbw]
  rw [hlen] at hload
  exact ⟨t, runsTo_add (runsTo_add hload hstart) hrun, hz, ha, hb', hwritten', hbusy, hdone,
    statusWord_of_done hbusy hdone⟩

/-- Settles O16: WR.A stores one word of A while idle, and is refused during a run. -/
theorem writeToInputBufferA : Obligations.WriteToInputBufferA := by
  intro i v s
  refine ⟨decode_word rfl rfl (by simp), fun hb => ?idle, fun hb => ?busy⟩
  case idle =>
    refine ⟨_, exec_wrA_of_idle hb i v, rfl, readWord_writeWord_same s.a i v, fun j => readWord_writeWord_ne s.a v,
      wasWritten_markWritten_same s.aWritten i, fun j => wasWritten_markWritten_ne s.aWritten, fun k => ?stored,
      fun off hout => ?kept, rfl, rfl, rfl, rfl, rfl, rfl, rfl, rfl, rfl⟩
    case stored => rw [windowByte_wordA, respond_a, writeA_a, readWord_writeWord_same]
    case kept => rw [windowByte_respond, windowByte_writeA_outside s v hout]
  case busy => exact ⟨_, exec_wrA_of_busy hb i v, rfl, onlyResponse_respond s _⟩

/-- Settles O17: WR.B stores one word of B while idle, and is refused during a run. -/
theorem writeToInputBufferB : Obligations.WriteToInputBufferB := by
  intro i v s
  refine ⟨decode_word rfl rfl (by simp), fun hb => ?idle, fun hb => ?busy⟩
  case idle =>
    refine ⟨_, exec_wrB_of_idle hb i v, rfl, readWord_writeWord_same s.b i v, fun j => readWord_writeWord_ne s.b v,
      wasWritten_markWritten_same s.bWritten i, fun j => wasWritten_markWritten_ne s.bWritten, fun k => ?stored,
      fun off hout => ?kept, rfl, rfl, rfl, rfl, rfl, rfl, rfl, rfl, rfl⟩
    case stored => rw [windowByte_wordB, respond_b, writeB_b, readWord_writeWord_same]
    case kept => rw [windowByte_respond, windowByte_writeB_outside s v hout]
  case busy => exact ⟨_, exec_wrB_of_busy hb i v, rfl, onlyResponse_respond s _⟩

/-- Settles O22, by the data word: 1 starts a run or is refused, 0 has no effect, every other word is refused. -/
theorem writeToCtrl : Obligations.WriteToCtrl := by
  intro v s
  refine ⟨Laws.RoundTrip.wrCtrl v rfl, ?start, ?busy, fun hv => ?reserved, ?zero⟩
  case start =>
    rintro rfl hb
    exact ⟨_, exec_wrCtrl_one_of_idle hb, rfl, rfl, rfl, rfl, rfl, rfl, rfl, rfl, rfl, rfl, rfl, rfl,
      fun _ hoff => windowByte_respond_startRun s _ hoff⟩
  case busy =>
    rintro rfl hb
    exact ⟨_, exec_wrCtrl_one_of_busy hb, rfl, onlyResponse_respond s _⟩
  case reserved => exact ⟨_, exec_wrCtrl_of_reservedBits hv s, rfl, onlyResponse_respond s _⟩
  case zero =>
    rintro rfl
    exact ⟨_, exec_wrCtrl_zero s, rfl, onlyResponse_respond s _⟩

/-- Settles O15: RD.A and RD.B only answer; the words after power-up are the draw's. -/
theorem inputBuffersReadBack : Obligations.InputBuffersReadBack := by
  intro i s
  obtain ⟨ha, hb, -, -⟩ := readWord_powerUpContent i
  exact ⟨decode_word rfl rfl (by simp),
    decode_word rfl rfl (by simp),
    ⟨_, exec_rdA i s, rfl, onlyResponse_respond s _⟩, ⟨_, exec_rdB i s, rfl, onlyResponse_respond s _⟩, ha, hb⟩

/-- Settles O18: RD.Z only answers, with the word while idle and with a refusal during a run. -/
theorem resultReadsOnlyWhenIdle : Obligations.ResultReadsOnlyWhenIdle := by
  intro i s
  obtain ⟨-, -, -, hz⟩ := readWord_powerUpContent i
  exact ⟨decode_word rfl rfl (by simp),
    fun hb => ⟨_, exec_rdZ_of_idle hb i, rfl, onlyResponse_respond s _⟩,
    fun hb => ⟨_, exec_rdZ_of_busy hb i, rfl, onlyResponse_respond s _⟩, hz⟩

/-- Settles O19: both writes are refused whether or not a run is in progress. -/
theorem resultAndStatusAreReadOnly : Obligations.ResultAndStatusAreReadOnly := by
  intro i v s
  exact ⟨decode_word rfl rfl (by simp), Laws.RoundTrip.wrStatus v rfl,
    ⟨_, exec_wrZ i v s, rfl, onlyResponse_respond s _⟩, ⟨_, exec_wrStatus v s, rfl, onlyResponse_respond s _⟩⟩

/-- Settles O20, from STATUS as a number and R28's exclusion of BUSY and DONE together. -/
theorem statusReadsBusyAndDone : Obligations.StatusReadsBusyAndDone := fun s =>
  ⟨Laws.RoundTrip.rdStatus rfl, _, _, exec_rdStatus s, rfl, statusWord_toNat s, onlyResponse_respond s _,
    StatusLegal.statusWord_cases⟩

/-- Settles O21: RD.CTRL only answers, with 0. -/
theorem ctrlReadsZero : Obligations.CtrlReadsZero := fun s =>
  ⟨Laws.RoundTrip.rdCtrl rfl, _, exec_rdCtrl s, rfl, onlyResponse_respond s _⟩

/-- Settles O26: a reserved offset decodes to RESERVED.T, which is refused in every state. -/
theorem reservedOffsetsAreUnmapped : Obligations.ReservedOffsetsAreUnmapped := by
  intro k off s
  refine ⟨fun hres h8 => decode_of_reservedOffset hres h8 k, _, exec_reservedT k off s, ?_, onlyResponse_respond s _⟩
  rw [respond_response, errorResponse_eq]

/-- Settles O27: a narrow or misaligned transaction decodes to BAD_ACCESS.T, which is refused in every state. -/
theorem narrowAndMisalignedAreBadAccess : Obligations.NarrowAndMisalignedAreBadAccess := by
  intro u s
  refine ⟨decode_of_badAccess, _, exec_badAccessT u s, ?_, onlyResponse_respond s _⟩
  rw [respond_response, errorResponse_eq]

end Sys2Proof.Proofs
end

section
/-! PROOFS of the family 60_exceptions.md: nothing stops the machine (R170). -/

namespace Sys2Proof.Machine

/-- A unit of the host's is always answered (R140): what a write may not do is refused in the response. -/
theorem exists_next_of_host_unit {e : Encoded} (he : ∀ w, e ≠ .u w) (s : State) :
    ∃ t, exec (decode e) s = .next t := by
  obtain ⟨_, answered | ⟨-, ⟨_, _, wroteA⟩ | ⟨_, _, wroteB⟩ | ⟨-, started⟩⟩⟩ := host_exec_cases e he s
  · exact ⟨_, answered⟩
  · exact ⟨_, wroteA⟩
  · exact ⟨_, wroteB⟩
  · exact ⟨_, started⟩

/-- In a state the invariants allow, the engine's turn neither leaves the ROM nor meets a reserved word (R46, R128). -/
theorem exists_next_of_engineTurn {s : State} (hl : StatusLegal s) (hp : NoProbe s) :
    ∃ t, engineTurn s = .next t := by
  cases hb : s.busy with
  | false => exact ⟨s, engineTurn_idle hb⟩
  | true =>
    obtain ⟨_, -, -, ⟨-, xorin⟩ | ⟨-, -, between⟩ | ⟨-, xorout⟩⟩ := engineTurn_cases (hl.upc_le hb) hp hb
    · exact ⟨_, xorin⟩
    · exact ⟨_, between⟩
    · exact ⟨_, xorout⟩

end Sys2Proof.Machine

namespace Sys2Proof.Proofs

open Sys2Proof.Machine

/-- Settles O35, by the next event: the engine's turn (also when no event is left), a unit of the host's, a reset. -/
theorem noReachableStateStops : Obligations.NoReachableStateStops := by
  intro s hl hp
  have engine (hnext : engineNext s) : ∃ t, step s = .next t := by
    rw [step_engine hnext]
    exact exists_next_of_engineTurn (s := popInput s) hl hp
  cases h : s.inputs with
  | nil => exact engine (.inl h)
  | cons event rest =>
    cases event with
    | engine => exact engine (.inr (by rw [h, List.head?_cons]))
    | host u =>
      rw [step_host h]
      exact exists_next_of_host_unit (by simp) _
    | ctrl v =>
      rw [step_ctrl h]
      exact exists_next_of_host_unit (by simp) _
    | reset content =>
      rw [step, h]
      exact ⟨_, rfl⟩

end Sys2Proof.Proofs
end

section
/-! PROOFS of the family 70_reset_and_hazards.md: the reset event (R190, R203), STATUS after a START (R198) and the length
of a run (R202). -/

namespace Sys2Proof.Machine

/-! ### The reset event (R190) -/

theorem step_reset {s : State} {content : ResetContent} {rest : List Input} (h : s.inputs = .reset content :: rest) :
    step s = .next (applyReset content (popInput s)) := by
  rw [step, h]
  rfl

/-! ### STATUS along a step (R198) -/

/-- STATUS is a function of the two status bits. -/
theorem statusWord_congr {s t : State} (hb : t.busy = s.busy) (hd : t.done = s.done) : statusWord t = statusWord s := by
  rw [statusWord, statusWord, hb, hd]

/-- Without a reset a step leaves STATUS, or it is an accepted START, after which STATUS is 1, or XOROUT, after which it
is 2. -/
theorem step_statusWord_cases {s t : State} (hp : NoProbe s) (hr : NoResetNext s) (h : step s = .next t) :
    statusWord t = statusWord s ∨ statusWord t = 1 ∨ statusWord t = 2 := by
  obtain ⟨c, hc, -⟩ | ⟨e, -, he⟩ | ⟨-, he⟩ := step_next_cases h
  · exact absurd hc (hr c)
  · obtain ⟨hb, hd, -⟩ | ⟨-, hb, hd, -⟩ := he.status_cases
    · exact .inl (statusWord_congr (s := popInput s) hb hd)
    · exact .inr (.inl (statusWord_of_running hb hd))
  · obtain ⟨-, hb, hd⟩ | ⟨-, -, rfl⟩ := engineTurn_keeps_or_xorout (s := popInput s) hp he
    · exact .inl (statusWord_congr (s := popInput s) hb hd)
    · exact .inr (.inr (statusWord_of_done (xoroutState_busy _) (xoroutState_done _)))

/-! ### The start of a run (R150) -/

/-- A run still at upc 0 meets the invariant of runs, whatever X holds: XORIN has yet to write it. -/
theorem runInvariant_of_upc_zero {s : State} (hb : s.busy = true) (hd : s.done = false) (hu : s.upc = 0)
    (hp : NoProbe s) : RunInvariant s :=
  ⟨statusLegal_of_running hb hd (by simp [hu]), hp, fun _ hpos => absurd hpos (by simp [hu])⟩

end Sys2Proof.Machine

namespace Sys2Proof.Proofs

open Sys2Proof.Machine

/-- Settles O44: an accepted START makes STATUS 1, and a step that is no reset leaves STATUS or makes it 1 or 2. -/
theorem statusIsNeverZeroAfterAStart : Obligations.StatusIsNeverZeroAfterAStart := by
  refine ⟨fun s t hb h => ?start, fun s t hp hl hne hr h => ?step⟩
  case start =>
    rw [exec_wrCtrl_one_of_idle hb] at h
    cases h
    exact statusWord_of_running rfl rfl
  case step =>
    obtain hkeep | hset := step_statusWord_cases hp hr h
    · rw [hkeep]
      exact hl.statusWord_cases.resolve_left hne
    · exact hset

/-- Settles O56: 134 engine steps take upc from 0 to 134 with the run still on, and the 135th is XOROUT. -/
theorem runTakes135EngineSteps : Obligations.RunTakes135EngineSteps := by
  intro s hb hd hu hp hin
  have hi : RunInvariant s := runInvariant_of_upc_zero hb hd hu hp
  have hzero : s.upc.toNat = 0 := by simp [hu]
  refine ⟨fun k hk => ?before, ?last⟩
  case before =>
    obtain ⟨t, hrun, ⟨hl, -, -⟩, htb, -, htu, -⟩ := runsTo_before_xorout (k := k) hi hb hin (by omega)
    have hupc : t.upc = BitVec.ofNat 8 k := BitVec.eq_of_toNat_eq (by rw [BitVec.toNat_ofNat]; omega)
    exact ⟨t, hrun, htb, hl.done_of_busy htb, hupc⟩
  case last =>
    obtain ⟨t, hrun, hz, ha, hb', -, -, htb, htd, htu⟩ := runsTo_compress hi hb hin hu
    exact ⟨t, hrun, htb, htd, htu, hz, ha, hb'⟩

/-- Settles O46: the state a reset leaves is built from its draw and the events to come alone, whatever the state before. -/
theorem resetAbandonsTheRun : Obligations.ResetAbandonsTheRun := by
  intro s content rest h
  have hrest : (popInput s).inputs = rest := by rw [popInput_of_cons h]
  exact ⟨_, step_reset h, rfl, rfl, rfl, rfl, statusWord_of_idle rfl rfl, rfl, rfl, rfl, rfl, hrest, rfl,
    fun i => ⟨wasWritten_replicate_false i, wasWritten_replicate_false i⟩⟩

end Sys2Proof.Proofs
end
